-- ==== Sys2Proof/Word.lean ====
section
/-! DEFINITION. The word types of the machine (00_scope.md R5, R7). -/

namespace Sys2Proof

/-- A memory cell, a general register or a timer: 8 bits (R5). -/
abbrev Byte := BitVec 8

/-- An instruction word, the index register, the program counter, a call-stack entry or the input mask:
16 bits (R5, R24, R25, R28, R33). -/
abbrev Word := BitVec 16

/-- The operand NNN: a 12-bit address (R91). -/
abbrev Addr12 := BitVec 12

/-- A four-bit field of an instruction word as a number 0 to 15 (R91). -/
abbrev Nibble := Fin 16

/-- The number of a general register V0 to VF (R20). -/
abbrev Reg := Fin 16

/-- VF, the register that doubles as the flag (R21). -/
abbrev Reg.vF : Reg := 15

end Sys2Proof
end

