-- ==== Sys2Proof/Config.lean ====
section
/-! DEFINITION. What is fixed for one machine (00_scope.md R5, R6) and the free values: the random source and
the host's free choices. -/

namespace Sys2Proof.Config

/-- `MEM_SIZE`: bytes of memory, addresses 0x000 to 0xFFF (R5). -/
abbrev memSize : Nat := 4096

/-- `PROG_BASE`: where the ROM is placed and where pc starts (R5). -/
abbrev progBase : Nat := 0x200

/-- `STACK_DEPTH`: entries of the call stack (R5). -/
abbrev stackDepth : Nat := 16

/-- The values of `SHIFT_SRC`: which register 8XY6 and 8XYE shift (R6, R173). -/
inductive ShiftSrc where
  | x
  | y
deriving DecidableEq, Repr

/-- The values of `SUB_FLAG`: the VF rule of 8XY5 and 8XY7 (R6, R172). -/
inductive SubFlag where
  | ge
  | gt
  | borrow
deriving DecidableEq, Repr

/-- The parameters of R6 that a Step depends on. They are named arguments of the model: `State` holds them, no
step changes them, and a statement about every state is a statement about every value of them (log 4, log 5). -/
structure Params where
  shiftSrc : ShiftSrc
  subFlag  : SubFlag
deriving DecidableEq, Repr

/-- `RAND`: the byte the random source gives at its n-th draw, a free value (R6, R36, R185; log 3). No body:
nothing is known of it. -/
opaque freeByte : Nat → Byte

/-- A call the interface of R120 offers the host, with a key code in 0 to 15 (R125). -/
inductive HostChoice where
  | step
  | tick
  | keyDown (code : Fin 16)
  | keyUp (code : Fin 16)
  | readFramebuffer
deriving DecidableEq, Repr, Inhabited

/-- What a host that is free to choose calls at its n-th choice, a free value (R120, R322; D17, log 2). No body:
nothing is known of it, so that every infinite order of calls is one of its values. -/
opaque freeHostChoice : Nat → HostChoice

end Sys2Proof.Config
end

