-- ==== Sys2Proof/Machine/Defaults.lean ====
section
/-! DEFINITION. The default values of the open parameters of 00_scope.md R6. The spec chose them (92_eei_decisions.md
D1, D7, D8, D12); each is named in the assumption log. -/

namespace Sys2Proof.Machine

/-- Default `SHIFT_SRC` and `SUB_FLAG` (D7, D8; DESIGN CHOICE, log 4 and log 5). -/
def defaultParams : Config.Params := ⟨.x, .ge⟩

/-- Default `RESET_V`: every register 0x00 (D1; DESIGN CHOICE, log 6). -/
def defaultV : Vector Byte 16 := Vector.replicate 16 0x00#8

/-- Default `RESET_I` (D1; DESIGN CHOICE, log 7). -/
def defaultI : Word := 0x0000#16

/-- Default `RESET_DT` (D1; DESIGN CHOICE, log 7). -/
def defaultDT : Byte := 0x00#8

/-- Default `RESET_ST` (D1; DESIGN CHOICE, log 7). -/
def defaultST : Byte := 0x00#8

/-- Default `GLYPHS`: the standard font of 93_implementation_defined.md G3, glyph g at 5g (PRESUMED, log 8). -/
def standardFont : List Byte :=
  [0xF0#8, 0x90#8, 0x90#8, 0x90#8, 0xF0#8] ++ [0x20#8, 0x60#8, 0x20#8, 0x20#8, 0x70#8] ++
  [0xF0#8, 0x10#8, 0xF0#8, 0x80#8, 0xF0#8] ++ [0xF0#8, 0x10#8, 0xF0#8, 0x10#8, 0xF0#8] ++
  [0x90#8, 0x90#8, 0xF0#8, 0x10#8, 0x10#8] ++ [0xF0#8, 0x80#8, 0xF0#8, 0x10#8, 0xF0#8] ++
  [0xF0#8, 0x80#8, 0xF0#8, 0x90#8, 0xF0#8] ++ [0xF0#8, 0x10#8, 0x20#8, 0x40#8, 0x40#8] ++
  [0xF0#8, 0x90#8, 0xF0#8, 0x90#8, 0xF0#8] ++ [0xF0#8, 0x90#8, 0xF0#8, 0x10#8, 0xF0#8] ++
  [0xF0#8, 0x90#8, 0xF0#8, 0x90#8, 0x90#8] ++ [0xE0#8, 0x90#8, 0xE0#8, 0x90#8, 0xE0#8] ++
  [0xF0#8, 0x80#8, 0x80#8, 0x80#8, 0xF0#8] ++ [0xE0#8, 0x90#8, 0x90#8, 0x90#8, 0xE0#8] ++
  [0xF0#8, 0x80#8, 0xF0#8, 0x80#8, 0xF0#8] ++ [0xF0#8, 0x80#8, 0xF0#8, 0x80#8, 0x80#8]

/-- What an address reads as when the memory list does not hold it: the contents at launch before any ROM byte, the
default glyphs at 0x000 to 0x04F and 0x00 elsewhere (10_state.md R40; log 8 and log 9). -/
def unlistedByte (a : Nat) : Byte := standardFont.getD a 0x00#8

end Sys2Proof.Machine
end

