-- ==== Sys2Proof/Syntax.lean ====
section
/-! DEFINITION. The instructions: one constructor per row of spec/opcode_table.json (30_encoding.md R94, R100). -/

namespace Sys2Proof

/-- The 35 recognised forms. `x` and `y` are the fields X and Y, `nn` is NN, `nnn` is NNN and `n` is N (R91). -/
inductive Instr where
  | cls                              -- 00E0  CLS
  | ret                              -- 00EE  RET
  | sys (nnn : Addr12)               -- 0NNN  SYS NNN
  | jp (nnn : Addr12)                -- 1NNN  JP NNN
  | call (nnn : Addr12)              -- 2NNN  CALL NNN
  | seImm (x : Reg) (nn : Byte)      -- 3XNN  SE Vx, NN
  | sneImm (x : Reg) (nn : Byte)     -- 4XNN  SNE Vx, NN
  | seReg (x y : Reg)                -- 5XY0  SE Vx, Vy
  | ldImm (x : Reg) (nn : Byte)      -- 6XNN  LD Vx, NN
  | addImm (x : Reg) (nn : Byte)     -- 7XNN  ADD Vx, NN
  | ldReg (x y : Reg)                -- 8XY0  LD Vx, Vy
  | orReg (x y : Reg)                -- 8XY1  OR Vx, Vy
  | andReg (x y : Reg)               -- 8XY2  AND Vx, Vy
  | xorReg (x y : Reg)               -- 8XY3  XOR Vx, Vy
  | addReg (x y : Reg)               -- 8XY4  ADD Vx, Vy
  | sub (x y : Reg)                  -- 8XY5  SUB Vx, Vy
  | shr (x y : Reg)                  -- 8XY6  SHR Vx, Vy
  | subn (x y : Reg)                 -- 8XY7  SUBN Vx, Vy
  | shl (x y : Reg)                  -- 8XYE  SHL Vx, Vy
  | sneReg (x y : Reg)               -- 9XY0  SNE Vx, Vy
  | ldI (nnn : Addr12)               -- ANNN  LD I, NNN
  | jpV0 (nnn : Addr12)              -- BNNN  JP V0, NNN
  | rnd (x : Reg) (nn : Byte)        -- CXNN  RND Vx, NN
  | drw (x y : Reg) (n : Nibble)     -- DXYN  DRW Vx, Vy, N
  | skp (x : Reg)                    -- EX9E  SKP Vx
  | sknp (x : Reg)                   -- EXA1  SKNP Vx
  | ldVxDt (x : Reg)                 -- FX07  LD Vx, DT
  | ldVxK (x : Reg)                  -- FX0A  LD Vx, K
  | ldDtVx (x : Reg)                 -- FX15  LD DT, Vx
  | ldStVx (x : Reg)                 -- FX18  LD ST, Vx
  | addI (x : Reg)                   -- FX1E  ADD I, Vx
  | ldF (x : Reg)                    -- FX29  LD F, Vx
  | ldB (x : Reg)                    -- FX33  LD B, Vx
  | ldMemRegs (x : Reg)              -- FX55  LD [I], Vx
  | ldRegsMem (x : Reg)              -- FX65  LD Vx, [I]
deriving DecidableEq, Repr

/-- The four nibbles A, B, C, D of a word (R91). -/
structure Nibbles where
  a : Nibble
  b : Nibble
  c : Nibble
  d : Nibble
deriving DecidableEq, Repr

/-- What decoding a word gives: one of the 35 forms, or `Unsupported(w)` (R100). -/
inductive Decoded where
  | instr (i : Instr)
  | unsupported (w : Word)
deriving DecidableEq, Repr

/-- What decoding a list of bytes gives: a decoded word with the bytes after it, or `truncated` where fewer than
two bytes are there. -/
inductive ByteDecoded where
  | decoded (d : Decoded) (rest : List Byte)
  | truncated
deriving DecidableEq, Repr

end Sys2Proof
end

