-- ==== Sys2Proof/Machine/State.lean ====
section
/-! DEFINITION. The machine's state as plain data (10_state.md), its stops, and the state after launch. -/

namespace Sys2Proof.Machine

/-- Memory M as (address, byte) pairs: addresses strictly rising and below 4096, and no entry equal to what its
address reads as when it is not listed (R34, R60). `Memory.wf` in Ops.lean says so. -/
abbrev Memory := List Host.Cell

/-- The framebuffer FB[x][y]: 64 columns of 32 cells, `true` is lit (R32). -/
abbrev Framebuffer := Vector (Vector Bool 32) 64

/-- Why the machine halted, with the information recorded (60_exceptions.md R300). -/
inductive HaltReason where
  /-- An illegal word or `SYS`; `w` is the raw word. -/
  | unsupportedInstruction (w : Word)
  /-- RET with an empty call stack. -/
  | stackUnderflow
  /-- CALL with a full call stack. -/
  | stackOverflow
  /-- A fetch or data access past 0xFFF; `e` is the lowest such address it would touch. -/
  | memoryOutOfBounds (e : Nat)
deriving DecidableEq, Repr

/-- The operations the host may start, one at a time (40_execution_cycle.md R120). -/
inductive HostOp where
  /-- `Step()`: one instruction (R121). -/
  | step
  /-- `Tick()`: both timers count down (R320). -/
  | tick
  /-- `KeyDown(code)` (R125). -/
  | keyDown (code : Nat)
  /-- `KeyUp(code)` (R125). -/
  | keyUp (code : Nat)
  /-- `ReadFramebuffer()` (R126). -/
  | readFramebuffer
deriving DecidableEq, Repr

/-- The host's calls to come, in order (R120: "any finite or infinite interleaving of these operations is a possible
run"; D17, log 2). -/
inductive Schedule where
  /-- `op` comes first, then what `rest` says. -/
  | first (op : HostOp) (rest : Schedule)
  /-- Step, for ever. -/
  | steps
  /-- Whatever the host chooses, for ever: `Config.freeHostChoice` at `n`, at `n + 1`, and so on. -/
  | free (n : Nat)
deriving DecidableEq, Repr

/-- What `Step()` returns (40_execution_cycle.md R122). -/
inductive StepResult where
  /-- `Continue`. -/
  | continues
  /-- `Halt(reason)`. -/
  | halt (r : HaltReason)
deriving DecidableEq, Repr

/-- The state. `params`, `draws` and `schedule` are the model's own fields; the others are the spec's (10_state.md). -/
structure State where
  /-- M (R34). -/
  mem : Memory
  /-- V0 to VF (R20). -/
  v : Vector Byte 16
  /-- I (R24). -/
  i : Word
  /-- pc (R25). -/
  pc : Word
  /-- S, top first (R28). -/
  stack : List Word
  /-- DT (R31). -/
  dt : Byte
  /-- ST (R31). -/
  st : Byte
  /-- FB (R32). -/
  fb : Framebuffer
  /-- K (R33). -/
  keys : Word
  /-- `halted` (R35). -/
  halted : Option HaltReason
  /-- `SHIFT_SRC` and `SUB_FLAG`, fixed for a machine (R6; log 4, log 5). -/
  params : Config.Params
  /-- How many bytes were drawn from the random source (R6, R36; log 3). -/
  draws : Nat
  /-- The host operations to come (R120, R37; log 2). -/
  schedule : Schedule
deriving DecidableEq, Repr

/-- The faults of a step: none. Every stop the spec describes is a Halt, which is a next state with `halted` set (R304),
and a Step after it is a next state too (R305; log 1). -/
inductive Fault where
deriving DecidableEq, Repr

/-- The refusals of a step. -/
inductive Refusal where
  /-- Raised by an arm of `exec` for an instruction without a meaning. Safe; no arm raises it. -/
  | notModelled (mnemonic : String)
  /-- Raised by the host operations KeyDown and KeyUp with a code above 15, a call that has no move (R125, D16).
  Safe (log 10). -/
  | keyCodeOutOfRange (code : Nat)
deriving DecidableEq, Repr

/-- The outcome of a step or of an instruction. -/
abbrev Outcome := Host.Outcome State Fault Refusal

/-- The state after launch with every parameter at its default and an empty ROM (70_reset_and_hazards.md R340,
10_state.md R40), and a host that then calls Step for ever: the spec leaves the host's calls free, and this order is the
model's choice (D17; log 2). `launch` in Launch.lean gives the state for any parameters, ROM and order of calls. -/
def State.reset : State where
  mem := []
  v := defaultV
  i := defaultI
  pc := 0x200#16
  stack := []
  dt := defaultDT
  st := defaultST
  fb := Vector.replicate 64 (Vector.replicate 32 false)
  keys := 0x0000#16
  halted := none
  params := defaultParams
  draws := 0
  schedule := .steps

end Sys2Proof.Machine
end

