-- ==== Sys2Proof/Machine/Ops.lean ====
section
/-! DEFINITION. The named operations over memory, registers, call stack, pc and random source (00_scope.md R10), and
the one operation that takes a halt (60_exceptions.md R304). -/

namespace Sys2Proof.Machine

/-! ### Memory (20_memory.md) -/

/-- The byte at an address: the listed one, or what the address reads as when it is not listed (R66, R70). -/
def Memory.read : Memory → Nat → Byte
  | [], a => unlistedByte a
  | (a', b) :: m, a => if a = a' then b else Memory.read m a

/-- The list with one entry more, unless that entry says what the address reads as without it. -/
def Memory.cons (a : Nat) (b : Byte) (m : Memory) : Memory :=
  if b = unlistedByte a then m else (a, b) :: m

/-- One byte written, in canonical form (R66). -/
def Memory.write : Memory → Nat → Byte → Memory
  | [], a, b => Memory.cons a b []
  | (a', b') :: m, a, b =>
    if a < a' then Memory.cons a b ((a', b') :: m)
    else if a = a' then Memory.cons a b m
    else (a', b') :: Memory.write m a b

/-- Bytes written at rising addresses from `base` on, the first at `base`. -/
def Memory.writeBlock : Memory → Nat → List Byte → Memory
  | m, _, [] => m
  | m, base, b :: bs => Memory.writeBlock (Memory.write m base b) (base + 1) bs

/-- Canonical form from address `lo` on. -/
def Memory.wfFrom : Nat → Memory → Bool
  | _, [] => true
  | lo, (a, b) :: m =>
    decide (lo ≤ a) && decide (a < Config.memSize) && decide (b ≠ unlistedByte a) && Memory.wfFrom (a + 1) m

/-- The canonical form of memory: addresses strictly rising and below 4096, no entry equal to what its address reads
as when it is not listed. -/
def Memory.wf (m : Memory) : Bool := Memory.wfFrom 0 m

/-- The bounds check of an access to `count` bytes from `base` on, in natural numbers with no wrap: the halt it
raises, with the lowest address past 0xFFF it would touch (R64, R210; D2 and D24, log 14 and log 15). -/
def boundsHalt (base count : Nat) : Option HaltReason :=
  if count = 0 ∨ base + count ≤ Config.memSize then none
  else some (.memoryOutOfBounds (max base 0x1000))

/-! ### Registers (10_state.md) -/

/-- `V[r]` (R9). No register is hard-wired (R20). -/
def State.getV (s : State) (r : Reg) : Byte := s.v[r.val]

/-- `V[r] <- b` (R9). -/
def State.setV (s : State) (r : Reg) (b : Byte) : State := { s with v := s.v.set r.val b }

/-- `I <- a`. -/
def State.setI (s : State) (a : Word) : State := { s with i := a }

/-- `pc <- t` (R9). A target is not checked when it is set (R27, R140). -/
def State.setPc (s : State) (t : Word) : State := { s with pc := t }

/-- The advance of pc by one instruction, by the fetch and by a taken skip (R25, R140). -/
def State.advancePc (s : State) : State := s.setPc (s.pc + 2#16)

/-- A skip: `pc <- pc + 2` when the condition holds (R140). -/
def State.skipIf (s : State) (c : Bool) : State := if c then s.advancePc else s

/-! ### Halts (60_exceptions.md) -/

/-- Halt entry (R304): the reason is recorded and nothing else changes. pc already holds what a halt leaves: the
address plus 2 after a fetch, the unfetchable address where the fetch itself failed (log 1, log 15).
There is no return from a halt (R305). -/
def takeHalt (r : HaltReason) (s : State) : Outcome := .next { s with halted := some r }

/-- The writes of an instruction whose accesses are `count` bytes from `base` on: all of them when the bounds check
passes, none when it fails (R65, R128). -/
def ifInBounds (base count : Nat) (s written : State) : Outcome :=
  match boundsHalt base count with
  | none => .next written
  | some r => takeHalt r s

/-- The ordinal code of a halt reason (R300; the spec's own label, D24). -/
def haltCode : HaltReason → Nat
  | .unsupportedInstruction _ => 1
  | .stackUnderflow => 2
  | .stackOverflow => 3
  | .memoryOutOfBounds _ => 4

/-! ### Call stack (10_state.md R28 to R30) -/

/-- `push(a)`: StackOverflow at depth 16, else one entry more on top (R29). -/
def push (a : Word) (s : State) : Except HaltReason State :=
  if s.stack.length < Config.stackDepth then .ok { s with stack := a :: s.stack }
  else .error .stackOverflow

/-- `pop()`: StackUnderflow on an empty stack, else the top entry and the state without it (R30). -/
def pop (s : State) : Except HaltReason (Word × State) :=
  match s.stack with
  | [] => .error .stackUnderflow
  | t :: rest => .ok (t, { s with stack := rest })

/-! ### Random source -/

/-- `draw_rand()`: one free byte, a fresh one at every draw (R10, R36, R185; log 3). -/
def drawRand (s : State) : Byte × State := (Config.freeByte s.draws, { s with draws := s.draws + 1 })

/-! ### Framebuffer cells (10_state.md R32) -/

/-- FB[x][y]. -/
def fbGet (fb : Framebuffer) (x : Fin 64) (y : Fin 32) : Bool := (fb[x.val])[y.val]

/-- FB[x][y] <- c. -/
def fbSet (fb : Framebuffer) (x : Fin 64) (y : Fin 32) (c : Bool) : Framebuffer :=
  fb.set x.val ((fb[x.val]).set y.val c)

end Sys2Proof.Machine
end

