-- ==== Sys2Proof/Machine/Flags.lean ====
section
/-! DEFINITION. The flag values written to VF and the order of the writes (10_state.md R21, R22; 42_alu.md R171,
R172). -/

namespace Sys2Proof.Machine

/-- A flag as the byte VF takes: 1 or 0. -/
def flagByte (f : Bool) : Byte := if f then 1#8 else 0#8

/-- Carry of an addition: the unsigned sum exceeds 255 (R180; PRESUMED by the spec, G5, log 16). -/
def carryFlag (a b : Byte) : Byte := flagByte (decide (a.toNat + b.toNat > 255))

/-- `subflag(m, s)` of a subtraction m - s, by `SUB_FLAG` (R172; D8, log 5). -/
def subFlag (p : Config.Params) (m s : Byte) : Byte :=
  match p.subFlag with
  | .ge => flagByte (decide (m.toNat ≥ s.toNat))
  | .gt => flagByte (decide (m.toNat > s.toNat))
  | .borrow => flagByte (decide (m.toNat < s.toNat))

/-- The bit a right shift shifts out: bit 0 (R182). -/
def shrFlag (b : Byte) : Byte := flagByte (b.getLsbD 0)

/-- The bit a left shift shifts out: bit 7 (R184). -/
def shlFlag (b : Byte) : Byte := flagByte (b.getLsbD 7)

/-- The collision flag of DRW (R243). -/
def collisionFlag (c : Bool) : Byte := flagByte c

/-- The writes of a flag-writing register operation: V[X] first, VF last, so that VF ends as the flag even where
X = F (R22, R171; D9, log 16). -/
def writeResultThenFlag (x : Reg) (result flag : Byte) (s : State) : State :=
  (s.setV x result).setV Reg.vF flag

end Sys2Proof.Machine
end

