-- ==== Sys2Proof/Machine/Operands.lean ====
section
/-! DEFINITION. How operands are formed and read (30_encoding.md R93, 43_index_memory.md R210, 42_alu.md R173,
44_display.md R240, R241, 45_input_timers.md R260). -/

namespace Sys2Proof.Machine

/-- NNN as a 16-bit address, zero-extended (R93, R211). -/
def addrOperand (nnn : Addr12) : Word := nnn.setWidth 16

/-- A register's value as a 16-bit number, zero-extended (R7). -/
def wide (b : Byte) : Word := b.setWidth 16

/-- The target of JP V0: NNN + V0, not masked to 12 bits; at most 0x10FE, so 16 bits hold it (R149; D3, log 13). -/
def offsetTarget (nnn : Addr12) (s : State) : Word := addrOperand nnn + wide (s.getV 0)

/-- The effective address I + k, a natural number that never wraps (R210). -/
def effAddr (s : State) (k : Nat) : Nat := s.i.toNat + k

/-- `shsrc(X, Y)`: the register a shift reads (R173; D7, log 4). -/
def shiftSource (p : Config.Params) (x y : Reg) : Reg :=
  match p.shiftSrc with
  | .x => x
  | .y => y

/-- The number of the key an instruction tests: the low four bits of V[X] (R260). -/
def keyIndex (s : State) (x : Reg) : Nat := (s.getV x).toNat % 16

/-- Whether that key is held (R260). -/
def keyHeld (s : State) (x : Reg) : Bool := s.keys.getLsbD (keyIndex s x)

/-- The byte FX0A stores: the low eight bits of the mask (R263; D10, log 17). -/
def keyWaitValue (k : Word) : Byte := k.setWidth 8

/-- The address of a glyph, V[X] * 5 with the full 8-bit value (R213). -/
def glyphAddr (b : Byte) : Word := wide b * 5#16

/-- The decimal digits of a byte, hundreds first (R214). -/
def bcdDigits (b : Byte) : List Byte :=
  [BitVec.ofNat 8 (b.toNat / 100), BitVec.ofNat 8 (b.toNat / 10 % 10), BitVec.ofNat 8 (b.toNat % 10)]

/-- How many registers and bytes the block V0 to VX has (R93, R215). -/
def blockCount (x : Reg) : Nat := x.val + 1

/-- The register block V0 to VX, V0 first (R215). -/
def blockBytes (s : State) (x : Reg) : List Byte := s.v.toList.take (blockCount x)

/-- The registers after V0 to VX are loaded from I on; the others keep their value (R216). -/
def blockLoaded (s : State) (x : Reg) : Vector Byte 16 :=
  Vector.ofFn fun k : Fin 16 => if k.val ≤ x.val then s.mem.read (effAddr s k.val) else s.getV k

/-- I after a block operation: I + X + 1 modulo 65536 (R210, R215; D2, log 14). -/
def blockNextI (s : State) (x : Reg) : Word := s.i + BitVec.ofNat 16 (blockCount x)

/-- A drawing column, wrapped modulo 64 (R240). -/
def wrapX (x : Nat) : Fin 64 := ⟨x % 64, by omega⟩

/-- A drawing row, wrapped modulo 32 (R240). -/
def wrapY (y : Nat) : Fin 32 := ⟨y % 32, by omega⟩

/-- Column `col` of a sprite row: bit 7 - col, the most significant bit leftmost (R241; D11, log 18). -/
def spriteBit (b : Byte) (col : Nat) : Bool := b.getLsbD (7 - col)

end Sys2Proof.Machine
end

