-- ==== Sys2Proof/Machine/Alu.lean ====
section
/-! DEFINITION. Register arithmetic (42_alu.md), all of it unsigned modulo 256 (R170). -/

namespace Sys2Proof.Machine

/-- LD Vx, NN (R174). -/
def execLdImm (x : Reg) (nn : Byte) (s : State) : Outcome := .next (s.setV x nn)

/-- ADD Vx, NN: no carry is reported (R175; D23, log 16). -/
def execAddImm (x : Reg) (nn : Byte) (s : State) : Outcome := .next (s.setV x (s.getV x + nn))

/-- LD Vx, Vy (R176). -/
def execLdReg (x y : Reg) (s : State) : Outcome := .next (s.setV x (s.getV y))

/-- OR Vx, Vy: VF is not reset (R177; D23, log 16). -/
def execOrReg (x y : Reg) (s : State) : Outcome := .next (s.setV x (s.getV x ||| s.getV y))

/-- AND Vx, Vy (R178). -/
def execAndReg (x y : Reg) (s : State) : Outcome := .next (s.setV x (s.getV x &&& s.getV y))

/-- XOR Vx, Vy (R179). -/
def execXorReg (x y : Reg) (s : State) : Outcome := .next (s.setV x (s.getV x ^^^ s.getV y))

/-- ADD Vx, Vy: VF is the carry (R180). -/
def execAddReg (x y : Reg) (s : State) : Outcome :=
  .next (writeResultThenFlag x (s.getV x + s.getV y) (carryFlag (s.getV x) (s.getV y)) s)

/-- SUB Vx, Vy: V[X] - V[Y], VF is subflag(V[X], V[Y]) (R181). -/
def execSub (x y : Reg) (s : State) : Outcome :=
  .next (writeResultThenFlag x (s.getV x - s.getV y) (subFlag s.params (s.getV x) (s.getV y)) s)

/-- SHR Vx, Vy: VF is the bit shifted out (R182). -/
def execShr (x y : Reg) (s : State) : Outcome :=
  let v := s.getV (shiftSource s.params x y)
  .next (writeResultThenFlag x (v >>> 1) (shrFlag v) s)

/-- SUBN Vx, Vy: V[Y] - V[X], VF is subflag(V[Y], V[X]) (R183). -/
def execSubn (x y : Reg) (s : State) : Outcome :=
  .next (writeResultThenFlag x (s.getV y - s.getV x) (subFlag s.params (s.getV y) (s.getV x)) s)

/-- SHL Vx, Vy: VF is the bit shifted out (R184). -/
def execShl (x y : Reg) (s : State) : Outcome :=
  let v := s.getV (shiftSource s.params x y)
  .next (writeResultThenFlag x (v <<< 1) (shlFlag v) s)

/-- RND Vx, NN: a free byte AND NN (R185; log 3). -/
def execRnd (x : Reg) (nn : Byte) (s : State) : Outcome :=
  let (r, s') := drawRand s
  .next (s'.setV x (r &&& nn))

end Sys2Proof.Machine
end

