-- ==== Sys2Proof/Decode.lean ====
section
/-! DEFINITION. The decoder, total on words and on bytes, and the encoder, both written from the opcode map of
30_encoding.md R94. The opcode numbers are PRESUMED there (general knowledge, G1; log 11). -/

namespace Sys2Proof

/-! ### Fields of a word (R91) -/

/-- Bits `lo + 3` down to `lo` of a word. -/
def nibbleAt (w : Word) (lo : Nat) : Nibble :=
  ⟨(w.extractLsb' lo 4).toNat, (w.extractLsb' lo 4).isLt⟩

/-- The split of a word into A, B, C, D (R91). -/
def nibbles (w : Word) : Nibbles :=
  ⟨nibbleAt w 12, nibbleAt w 8, nibbleAt w 4, nibbleAt w 0⟩

/-- The word whose nibbles are these. -/
def packNibbles (n : Nibbles) : Word :=
  BitVec.ofNat 16 (n.a.val * 4096 + n.b.val * 256 + n.c.val * 16 + n.d.val)

/-- NN, the concatenation of C and D (R91). -/
def byteOf (c d : Nibble) : Byte := BitVec.ofNat 8 (c.val * 16 + d.val)

/-- NNN, the concatenation of B, C and D (R91). -/
def addrOf (b c d : Nibble) : Addr12 := BitVec.ofNat 12 (b.val * 256 + c.val * 16 + d.val)

/-- The word of two bytes, the first in bits 15 to 8 (R62, R90). -/
def wordOfBytes (first second : Byte) : Word := first ++ second

/-- The two bytes of a word in the order of their addresses (R62). -/
def bytesOfWord (w : Word) : List Byte := [w.extractLsb' 8 8, w.extractLsb' 0 8]

/-! ### The decoder -/

/-- Nibble A = 0: CLS and RET come before SYS (R94). -/
def decode0 (n : Nibbles) : Decoded :=
  if n.b.val = 0 ∧ n.c.val = 0xE ∧ n.d.val = 0x0 then .instr .cls
  else if n.b.val = 0 ∧ n.c.val = 0xE ∧ n.d.val = 0xE then .instr .ret
  else .instr (.sys (addrOf n.b n.c n.d))

/-- Nibble A = 8: the register operations, selected by D (R94, R95). -/
def decode8 (w : Word) (n : Nibbles) : Decoded :=
  match n.d.val with
  | 0x0 => .instr (.ldReg n.b n.c)
  | 0x1 => .instr (.orReg n.b n.c)
  | 0x2 => .instr (.andReg n.b n.c)
  | 0x3 => .instr (.xorReg n.b n.c)
  | 0x4 => .instr (.addReg n.b n.c)
  | 0x5 => .instr (.sub n.b n.c)
  | 0x6 => .instr (.shr n.b n.c)
  | 0x7 => .instr (.subn n.b n.c)
  | 0xE => .instr (.shl n.b n.c)
  | _ => .unsupported w

/-- Nibble A = E: the key skips, selected by the low byte (R94, R95). -/
def decodeE (w : Word) (n : Nibbles) : Decoded :=
  if n.c.val = 0x9 ∧ n.d.val = 0xE then .instr (.skp n.b)
  else if n.c.val = 0xA ∧ n.d.val = 0x1 then .instr (.sknp n.b)
  else .unsupported w

/-- Nibble A = F: timers, key wait, index and memory forms, selected by the low byte (R94, R95). -/
def decodeF (w : Word) (n : Nibbles) : Decoded :=
  if n.c.val = 0x0 ∧ n.d.val = 0x7 then .instr (.ldVxDt n.b)
  else if n.c.val = 0x0 ∧ n.d.val = 0xA then .instr (.ldVxK n.b)
  else if n.c.val = 0x1 ∧ n.d.val = 0x5 then .instr (.ldDtVx n.b)
  else if n.c.val = 0x1 ∧ n.d.val = 0x8 then .instr (.ldStVx n.b)
  else if n.c.val = 0x1 ∧ n.d.val = 0xE then .instr (.addI n.b)
  else if n.c.val = 0x2 ∧ n.d.val = 0x9 then .instr (.ldF n.b)
  else if n.c.val = 0x3 ∧ n.d.val = 0x3 then .instr (.ldB n.b)
  else if n.c.val = 0x5 ∧ n.d.val = 0x5 then .instr (.ldMemRegs n.b)
  else if n.c.val = 0x6 ∧ n.d.val = 0x5 then .instr (.ldRegsMem n.b)
  else .unsupported w

/-- The dispatch on nibble A, then on the others (R94). `w` is the raw word an illegal encoding reports (R95). Every
fixed nibble must match (DESIGN CHOICE of the spec, D6; log 12). -/
def decodeNibbles (w : Word) (n : Nibbles) : Decoded :=
  match n.a.val with
  | 0x0 => decode0 n
  | 0x1 => .instr (.jp (addrOf n.b n.c n.d))
  | 0x2 => .instr (.call (addrOf n.b n.c n.d))
  | 0x3 => .instr (.seImm n.b (byteOf n.c n.d))
  | 0x4 => .instr (.sneImm n.b (byteOf n.c n.d))
  | 0x5 => if n.d.val = 0 then .instr (.seReg n.b n.c) else .unsupported w
  | 0x6 => .instr (.ldImm n.b (byteOf n.c n.d))
  | 0x7 => .instr (.addImm n.b (byteOf n.c n.d))
  | 0x8 => decode8 w n
  | 0x9 => if n.d.val = 0 then .instr (.sneReg n.b n.c) else .unsupported w
  | 0xA => .instr (.ldI (addrOf n.b n.c n.d))
  | 0xB => .instr (.jpV0 (addrOf n.b n.c n.d))
  | 0xC => .instr (.rnd n.b (byteOf n.c n.d))
  | 0xD => .instr (.drw n.b n.c n.d)
  | 0xE => decodeE w n
  | 0xF => decodeF w n
  | _ => .unsupported w

/-- `decode` of R100: total on 16-bit words. -/
def decodeWord (w : Word) : Decoded := decodeNibbles w (nibbles w)

/-- Decoding at the start of a list of bytes (R62, R90). -/
def decodeBytes : List Byte → ByteDecoded
  | first :: second :: rest => .decoded (decodeWord (wordOfBytes first second)) rest
  | _ => .truncated

/-- The instruction the decoder reads from a table row's bits: bit 0 of `w` is the least significant bit of the
instruction word, and the word is laid out big-endian (R62). -/
def decodeTableWord (nbits w : Nat) : Option Instr :=
  match decodeBytes (bytesOfWord (BitVec.ofNat 16 (w % 2 ^ nbits))) with
  | .decoded (.instr i) _ => some i
  | _ => none

/-! ### The encoder -/

/-- C, the high nibble of NN. -/
def byteHi (b : Byte) : Nibble := ⟨b.toNat / 16, by have := b.isLt; omega⟩

/-- D, the low nibble of NN. -/
def byteLo (b : Byte) : Nibble := ⟨b.toNat % 16, by omega⟩

/-- The nibbles of a form with NNN: A is `a` and B, C, D are the address (format `A`, R92). -/
def nibblesA (a : Nibble) (nnn : Addr12) : Nibbles :=
  ⟨a, ⟨nnn.toNat / 256, by have := nnn.isLt; omega⟩, ⟨nnn.toNat / 16 % 16, by omega⟩, ⟨nnn.toNat % 16, by omega⟩⟩

/-- The nibbles of a form with X and NN (format `XK`, R92). -/
def nibblesXK (a : Nibble) (x : Reg) (nn : Byte) : Nibbles := ⟨a, x, byteHi nn, byteLo nn⟩

/-- The nibbles of each instruction (R92, R94). -/
def encodeNibbles : Instr → Nibbles
  | .cls            => ⟨0x0, 0x0, 0xE, 0x0⟩
  | .ret            => ⟨0x0, 0x0, 0xE, 0xE⟩
  | .sys nnn        => nibblesA 0x0 nnn
  | .jp nnn         => nibblesA 0x1 nnn
  | .call nnn       => nibblesA 0x2 nnn
  | .seImm x nn     => nibblesXK 0x3 x nn
  | .sneImm x nn    => nibblesXK 0x4 x nn
  | .seReg x y      => ⟨0x5, x, y, 0x0⟩
  | .ldImm x nn     => nibblesXK 0x6 x nn
  | .addImm x nn    => nibblesXK 0x7 x nn
  | .ldReg x y      => ⟨0x8, x, y, 0x0⟩
  | .orReg x y      => ⟨0x8, x, y, 0x1⟩
  | .andReg x y     => ⟨0x8, x, y, 0x2⟩
  | .xorReg x y     => ⟨0x8, x, y, 0x3⟩
  | .addReg x y     => ⟨0x8, x, y, 0x4⟩
  | .sub x y        => ⟨0x8, x, y, 0x5⟩
  | .shr x y        => ⟨0x8, x, y, 0x6⟩
  | .subn x y       => ⟨0x8, x, y, 0x7⟩
  | .shl x y        => ⟨0x8, x, y, 0xE⟩
  | .sneReg x y     => ⟨0x9, x, y, 0x0⟩
  | .ldI nnn        => nibblesA 0xA nnn
  | .jpV0 nnn       => nibblesA 0xB nnn
  | .rnd x nn       => nibblesXK 0xC x nn
  | .drw x y n      => ⟨0xD, x, y, n⟩
  | .skp x          => ⟨0xE, x, 0x9, 0xE⟩
  | .sknp x         => ⟨0xE, x, 0xA, 0x1⟩
  | .ldVxDt x       => ⟨0xF, x, 0x0, 0x7⟩
  | .ldVxK x        => ⟨0xF, x, 0x0, 0xA⟩
  | .ldDtVx x       => ⟨0xF, x, 0x1, 0x5⟩
  | .ldStVx x       => ⟨0xF, x, 0x1, 0x8⟩
  | .addI x         => ⟨0xF, x, 0x1, 0xE⟩
  | .ldF x          => ⟨0xF, x, 0x2, 0x9⟩
  | .ldB x          => ⟨0xF, x, 0x3, 0x3⟩
  | .ldMemRegs x    => ⟨0xF, x, 0x5, 0x5⟩
  | .ldRegsMem x    => ⟨0xF, x, 0x6, 0x5⟩

/-- The word of an instruction (R94). -/
def encode (i : Instr) : Word := packNibbles (encodeNibbles i)

/-- The two bytes of an instruction in memory order (R62). -/
def encodeBytes (i : Instr) : List Byte := bytesOfWord (encode i)

end Sys2Proof
end

