-- ==== Sys2Proof/Machine/ControlFlow.lean ====
section
/-! DEFINITION. Control flow (41_control_flow.md). Every meaning starts after the fetch: pc already holds the
instruction's address plus 2 (00_scope.md R11). -/

namespace Sys2Proof.Machine

/-- An illegal word halts UnsupportedInstruction with the raw word (30_encoding.md R95). -/
def execUnsupported (w : Word) (s : State) : Outcome := takeHalt (.unsupportedInstruction w) s

/-- SYS NNN always halts UnsupportedInstruction with its own word (R96, R141). -/
def execSys (nnn : Addr12) (s : State) : Outcome := takeHalt (.unsupportedInstruction (encode (.sys nnn))) s

/-- RET: pc <- pop() (R142). -/
def execRet (s : State) : Outcome :=
  match pop s with
  | .ok (t, s') => .next (s'.setPc t)
  | .error r => takeHalt r s

/-- JP NNN: pc <- NNN (R143). -/
def execJp (nnn : Addr12) (s : State) : Outcome := .next (s.setPc (addrOperand nnn))

/-- CALL NNN: push(pc), then pc <- NNN (R144). -/
def execCall (nnn : Addr12) (s : State) : Outcome :=
  match push s.pc s with
  | .ok s' => .next (s'.setPc (addrOperand nnn))
  | .error r => takeHalt r s

/-- SE Vx, NN (R145). -/
def execSeImm (x : Reg) (nn : Byte) (s : State) : Outcome := .next (s.skipIf (s.getV x == nn))

/-- SNE Vx, NN (R146). -/
def execSneImm (x : Reg) (nn : Byte) (s : State) : Outcome := .next (s.skipIf (s.getV x != nn))

/-- SE Vx, Vy (R147). -/
def execSeReg (x y : Reg) (s : State) : Outcome := .next (s.skipIf (s.getV x == s.getV y))

/-- SNE Vx, Vy (R148). -/
def execSneReg (x y : Reg) (s : State) : Outcome := .next (s.skipIf (s.getV x != s.getV y))

/-- JP V0, NNN: pc <- NNN + V0 (R149). -/
def execJpV0 (nnn : Addr12) (s : State) : Outcome := .next (s.setPc (offsetTarget nnn s))

end Sys2Proof.Machine
end

