-- ==== Sys2Proof/Machine/Display.lean ====
section
/-! DEFINITION. The framebuffer and the sprite-raster engine (44_display.md). -/

namespace Sys2Proof.Machine

/-- A framebuffer with every cell off. -/
def fbClear : Framebuffer := Vector.replicate 64 (Vector.replicate 32 false)

/-- CLS (R242). -/
def execCls (s : State) : Outcome := .next { s with fb := fbClear }

/-- One column of a sprite row at drawing coordinates x, y: a set sprite bit toggles the cell and records a collision
where the cell was lit; a clear bit leaves it alone (R243). The second component is the collision so far. -/
def drawCell (x y : Nat) (bit : Bool) (p : Framebuffer × Bool) : Framebuffer × Bool :=
  if bit then
    let lit := fbGet p.1 (wrapX x) (wrapY y)
    (fbSet p.1 (wrapX x) (wrapY y) (!lit), p.2 || lit)
  else p

/-- One sprite row, the byte `b`, at the origin ox, oy + r: the columns from left to right (R243). -/
def drawRow (ox y : Nat) (b : Byte) (p : Framebuffer × Bool) : Framebuffer × Bool :=
  (List.range 8).foldl (fun q col => drawCell (ox + col) y (spriteBit b col) q) p

/-- The sprite of `n` rows whose bytes stand in memory from `base` on: the rows from top to bottom, the collision
accumulated over all of them (R243). -/
def drawSprite (m : Memory) (base ox oy n : Nat) (fb : Framebuffer) : Framebuffer × Bool :=
  (List.range n).foldl (fun q r => drawRow ox (oy + r) (m.read (base + r)) q) (fb, false)

/-- DRW Vx, Vy, N: the coordinates are read before VF is written, and VF is written last (R243). With N = 0 nothing
is read, so nothing is checked. -/
def execDrw (x y : Reg) (n : Nibble) (s : State) : Outcome :=
  let drawn := drawSprite s.mem (effAddr s 0) (s.getV x).toNat (s.getV y).toNat n.val s.fb
  ifInBounds (effAddr s 0) n.val s
    (({ s with fb := drawn.1 } : State).setV Reg.vF (collisionFlag drawn.2))

end Sys2Proof.Machine
end

