-- ==== Sys2Proof/Machine/IndexMemory.lean ====
section
/-! DEFINITION. Index register and memory operations (43_index_memory.md). Every address is checked before anything
is written (R210, 20_memory.md R65). -/

namespace Sys2Proof.Machine

/-- LD I, NNN (R211). -/
def execLdI (nnn : Addr12) (s : State) : Outcome := .next (s.setI (addrOperand nnn))

/-- ADD I, Vx: modulo 65536, VF is not written (R212; D2 and D23, log 14 and log 16). -/
def execAddI (x : Reg) (s : State) : Outcome := .next (s.setI (s.i + wide (s.getV x)))

/-- LD F, Vx: I <- V[X] * 5 (R213). -/
def execLdF (x : Reg) (s : State) : Outcome := .next (s.setI (glyphAddr (s.getV x)))

/-- LD B, Vx: the decimal digits of V[X] at I, I + 1, I + 2 (R214). -/
def execLdB (x : Reg) (s : State) : Outcome :=
  ifInBounds (effAddr s 0) 3 s
    { s with mem := s.mem.writeBlock (effAddr s 0) (bcdDigits (s.getV x)) }

/-- LD [I], Vx: V0 to VX stored from I on, then I <- I + X + 1 (R215). -/
def execLdMemRegs (x : Reg) (s : State) : Outcome :=
  ifInBounds (effAddr s 0) (blockCount x) s
    { s with mem := s.mem.writeBlock (effAddr s 0) (blockBytes s x), i := blockNextI s x }

/-- LD Vx, [I]: V0 to VX loaded from I on, then I <- I + X + 1 (R216). -/
def execLdRegsMem (x : Reg) (s : State) : Outcome :=
  ifInBounds (effAddr s 0) (blockCount x) s
    { s with v := blockLoaded s x, i := blockNextI s x }

end Sys2Proof.Machine
end

