-- ==== Sys2Proof/Machine/InputTimers.lean ====
section
/-! DEFINITION. Input and timer instructions (45_input_timers.md). -/

namespace Sys2Proof.Machine

/-- SKP Vx (R261). -/
def execSkp (x : Reg) (s : State) : Outcome := .next (s.skipIf (keyHeld s x))

/-- SKNP Vx (R262). -/
def execSknp (x : Reg) (s : State) : Outcome := .next (s.skipIf (!keyHeld s x))

/-- LD Vx, K: with no key held pc goes back to the instruction, else V[X] <- K[7:0] (R263, R351). -/
def execLdVxK (x : Reg) (s : State) : Outcome :=
  if s.keys = 0#16 then .next (s.setPc (s.pc - 2#16))
  else .next (s.setV x (keyWaitValue s.keys))

/-- LD Vx, DT (R264; PRESUMED by the spec, G2, log 11). -/
def execLdVxDt (x : Reg) (s : State) : Outcome := .next (s.setV x s.dt)

/-- LD DT, Vx (R265; PRESUMED by the spec, G2, log 11). -/
def execLdDtVx (x : Reg) (s : State) : Outcome := .next { s with dt := s.getV x }

/-- LD ST, Vx (R266; PRESUMED by the spec, G2, log 11). -/
def execLdStVx (x : Reg) (s : State) : Outcome := .next { s with st := s.getV x }

end Sys2Proof.Machine
end

