-- ==== Sys2Proof/Machine/Fetch.lean ====
section
/-! DEFINITION. Fetching an instruction's bytes (30_encoding.md R90, 40_execution_cycle.md R121). -/

namespace Sys2Proof.Machine

/-- The halt the fetch at pc raises, if any: both bytes must lie in memory (R90). -/
def fetchHalt (s : State) : Option HaltReason := boundsHalt s.pc.toNat 2

/-- The word at pc: M[pc] is bits 15 to 8, M[pc + 1] is bits 7 to 0 (R62, R90). -/
def fetchWord (s : State) : Word :=
  wordOfBytes (s.mem.read s.pc.toNat) (s.mem.read (s.pc.toNat + 1))

/-- Memory with a word stored at an address, where both its bytes lie in memory. -/
def storeWord (m : Memory) (a : Nat) (w : Word) : Memory :=
  match boundsHalt a 2 with
  | none => m.writeBlock a (bytesOfWord w)
  | some _ => m

end Sys2Proof.Machine
end

