-- ==== Sys2Proof/Machine/HostOps.lean ====
section
/-! DEFINITION. The host's schedule, what Step returns, and the host's other operations: Tick, KeyDown, KeyUp, ReadFramebuffer (40_execution_cycle.md R120,
R125, R126; 60_exceptions.md R320). None of them reads or clears `halted` (R305). -/

namespace Sys2Proof.Machine

/-- A free host's call as an operation. -/
def hostChoiceOp : Config.HostChoice → HostOp
  | .step => .step
  | .tick => .tick
  | .keyDown code => .keyDown code.val
  | .keyUp code => .keyUp code.val
  | .readFramebuffer => .readFramebuffer

/-- The operation the host starts next (R120; log 2). -/
def nextHostOp : Schedule → HostOp
  | .first op _ => op
  | .steps => .step
  | .free n => hostChoiceOp (Config.freeHostChoice n)

/-- What is to come after that operation (R120; log 2). -/
def scheduleRest : Schedule → Schedule
  | .first _ rest => rest
  | .steps => .steps
  | .free n => .free (n + 1)

/-- The state in which that operation begins: the schedule moved on and nothing else changed (log 2). -/
def State.hostTurn (s : State) : State := { s with schedule := scheduleRest s.schedule }

/-- A timer one tick later: one less, clamped at zero (R320). -/
def countDown (t : Byte) : Byte := if t = 0#8 then 0#8 else t - 1#8

/-- `Tick()` (R320). -/
def tick (s : State) : State := { s with dt := countDown s.dt, st := countDown s.st }

/-- The mask with only bit `code` set. -/
def keyBit (code : Nat) : Word := 1#16 <<< code

/-- `KeyDown(code)`: bit `code` of K set; a code above 15 has no move (R125; D16, log 10). -/
def keyDown (code : Nat) (s : State) : Outcome :=
  if code < 16 then .next { s with keys := s.keys ||| keyBit code } else .refused (.keyCodeOutOfRange code)

/-- `KeyUp(code)`: bit `code` of K cleared; a code above 15 has no move (R125; D16, log 10). -/
def keyUp (code : Nat) (s : State) : Outcome :=
  if code < 16 then .next { s with keys := s.keys &&& ~~~ keyBit code } else .refused (.keyCodeOutOfRange code)

/-- What `Step()` returned, told from the state it left: `Halt(r)` where that state is halted with `r`, by this Step or by
an earlier one, and `Continue` otherwise (R121, R122). -/
def stepResult (after : State) : StepResult :=
  match after.halted with
  | none => .continues
  | some r => .halt r

/-- What `ReadFramebuffer()` returns; it changes nothing (R126). -/
def readFramebuffer (s : State) : Framebuffer := s.fb

end Sys2Proof.Machine
end

