-- ==== Sys2Proof/Machine/Cycle.lean ====
section
/-! DEFINITION. The execution cycle: fetch, decode, execute, and the choice among the host's operations
(40_execution_cycle.md R120, R121). -/

namespace Sys2Proof.Machine

/-- The instruction part of `Step()` after the fetch: an illegal word halts, every other word runs (R121, R124). -/
def execDecoded : Decoded → State → Outcome
  | .instr i, s => exec i s
  | .unsupported w, s => execUnsupported w s

/-- `Step()` (R121), in the order of R303: an earlier halt, the bounds of the fetch, the decode, the instruction. A
Step on a halted machine changes nothing, and returns the same Halt again: `stepResult` (R305; log 1). -/
def stepInstr (s : State) : Outcome :=
  match s.halted with
  | some _ => .next s
  | none =>
    match fetchHalt s with
    | some r => takeHalt r s
    | none => execDecoded (decodeWord (fetchWord s)) s.advancePc

/-- One operation of the host's (R120). -/
def performHostOp : HostOp → State → Outcome
  | .step, s => stepInstr s
  | .tick, s => .next (tick s)
  | .keyDown code, s => keyDown code s
  | .keyUp code, s => keyUp code s
  | .readFramebuffer, s => .next s

end Sys2Proof.Machine
end

