-- ==== Sys2Proof/Machine/Step.lean ====
section
/-! DEFINITION. One step of the machine (40_execution_cycle.md R120, R121). -/

namespace Sys2Proof.Machine

/-- One step: the operation the schedule says comes next (R120; log 2). -/
def step (s : State) : Host.Outcome State Fault Refusal :=
  performHostOp (nextHostOp s.schedule) s.hostTurn

/-- The state with an instruction word placed where the next step fetches it, ready to run: the word at pc, a Step
first in the schedule and no earlier halt. It stands for the loading of a program and is no operation of the
machine (log 20). Where pc is past 0xFFE no word can be placed. -/
def State.withFetchWord (s : State) (nbits w : Nat) : State :=
  { s with
    mem := storeWord s.mem s.pc.toNat (BitVec.ofNat 16 (w % 2 ^ nbits))
    halted := none
    schedule := .first .step s.schedule }

end Sys2Proof.Machine
end

