-- ==== Sys2Proof/Machine/Launch.lean ====
section
/-! DEFINITION. Launch for any parameters, ROM and host (70_reset_and_hazards.md R340 to R343). -/

namespace Sys2Proof.Machine

/-- The parameters of a launch (00_scope.md R6). -/
structure LaunchParams where
  resetV  : Vector Byte 16
  resetI  : Word
  resetDT : Byte
  resetST : Byte
  glyphs  : Vector Byte 80
  params  : Config.Params
deriving DecidableEq, Repr

/-- Why there is no launch (R301, R343). -/
inductive LaunchError where
  /-- The ROM is missing or cannot be read: the run never starts. -/
  | romLoadFailure
  /-- The ROM has more than 3584 bytes: rejected (D15, log 20). -/
  | romTooLarge (length : Nat)
deriving DecidableEq, Repr

/-- Every parameter at its default (92_eei_decisions.md D1, D7, D8, D12). -/
def defaultLaunch : LaunchParams where
  resetV := defaultV
  resetI := defaultI
  resetDT := defaultDT
  resetST := defaultST
  glyphs := ⟨standardFont.toArray, by decide⟩
  params := defaultParams

/-- Memory at launch: zero, then the glyphs at 0x000, then the ROM at 0x200 (R340, R342, R343). -/
def launchMemory (glyphs : List Byte) (rom : List Byte) : Memory :=
  (Memory.writeBlock [] 0 glyphs).writeBlock Config.progBase rom

/-- The launch (R340). `host` is the order of the calls the host makes after it: the spec leaves it free (R344, D17), and
so it is an argument (log 2). The count of draws starts at 0, which is the model's choice and selects no known byte
(log 3). `none` is a ROM that cannot be read. -/
def launch (p : LaunchParams) (host : Schedule) : Option (List Byte) → Except LaunchError State
  | none => .error .romLoadFailure
  | some rom =>
    if rom.length ≤ Config.memSize - Config.progBase then
      .ok
        { mem := launchMemory p.glyphs.toList rom
          v := p.resetV
          i := p.resetI
          pc := BitVec.ofNat 16 Config.progBase
          stack := []
          dt := p.resetDT
          st := p.resetST
          fb := Vector.replicate 64 (Vector.replicate 32 false)
          keys := 0x0000#16
          halted := none
          params := p.params
          draws := 0
          schedule := host }
    else .error (.romTooLarge rom.length)

end Sys2Proof.Machine
end

