-- ==== Sys2Proof/Safety.lean ====
section
/-! DEFINITION. The terms in which claims are made: the machine's invariant, how a run can end, what a run reaches,
and what an instruction leaves unchanged. -/

namespace Sys2Proof.Machine

/-- The invariant of the machine: memory in canonical form, at most 16 return addresses, each at most 0x1000 (R28,
R142; D28), and pc at most 0x10FE (R27). -/
def State.Inv (s : State) : Prop :=
  s.mem.wf = true ∧ s.stack.length ≤ 16 ∧ (∀ a ∈ s.stack, a.toNat ≤ 0x1000) ∧ s.pc.toNat ≤ 0x10FE

/-- A faulted end of a run: the machine is halted (R127). -/
def State.FaultedEnd (s : State) : Prop := s.halted ≠ none

/-- A normal end of a run: the word at pc, both bytes in memory, is a jump to pc itself (R127; D25, log 22). -/
def State.Ended (s : State) : Prop :=
  s.halted = none ∧ s.pc.toNat + 1 ≤ 0xFFF ∧ fetchWord s = BitVec.ofNat 16 (0x1000 + s.pc.toNat)

/-- The states a run of steps reaches from a state. -/
inductive Reaches (s : State) : State → Prop where
  | here : Reaches s s
  | more {t u : State} : Reaches s t → step t = .next u → Reaches s u

/-- A run of exactly `k` steps leads from one state to the other. -/
def State.RunsTo : Nat → State → State → Prop
  | 0, s, t => s = t
  | k + 1, s, t => ∃ u, step s = .next u ∧ State.RunsTo k u t

/-- A run is safe when it reaches no halted state: the machine never stops at an error (R300). -/
def State.RunsSafely (s : State) : Prop := ∀ t, Reaches s t → t.halted = none

/-- The host calls this operation next (R120). -/
def State.HostCalls (s : State) (op : HostOp) : Prop := nextHostOp s.schedule = op

/-- The call is in the interface: it is no key event with a code above 15 (R125). -/
def HostOp.Offered (op : HostOp) : Prop := ∀ code, op = .keyDown code ∨ op = .keyUp code → code < 16

/-- The state as an instruction sees it after its fetch: pc past the instruction, the schedule moved on (R11, R121). -/
def State.fetched (s : State) : State := { s.hostTurn with pc := s.pc + 2#16 }

/-- An instruction and the number of its word, as 30_encoding.md R94 writes the pattern. -/
def HasWord (i : Instr) (w : Nat) : Prop := decodeWord (BitVec.ofNat 16 w) = .instr i ∧ encode i = BitVec.ofNat 16 w

/-- The parts of State an instruction may write, pc apart (10_state.md R39). -/
structure Writes where
  /-- General registers. -/
  regs : List Reg := []
  /-- Addresses of bytes stored to. -/
  stores : List Nat := []
  /-- I. -/
  index : Bool := false
  /-- S. -/
  stack : Bool := false
  /-- DT. -/
  dt : Bool := false
  /-- ST. -/
  st : Bool := false
  /-- FB. -/
  fb : Bool := false
  /-- The count of draws from the random source. -/
  draws : Bool := false

/-- Between `s` and `t` nothing changed but what is listed, and pc. K, `halted`, the parameters and the schedule are
never listed. -/
def Frame (w : Writes) (s t : State) : Prop :=
  (∀ r : Reg, r ∉ w.regs → t.getV r = s.getV r) ∧
  (∀ a : Nat, a ∉ w.stores → t.mem.read a = s.mem.read a) ∧
  (w.index = false → t.i = s.i) ∧
  (w.stack = false → t.stack = s.stack) ∧
  (w.dt = false → t.dt = s.dt) ∧
  (w.st = false → t.st = s.st) ∧
  (w.fb = false → t.fb = s.fb) ∧
  (w.draws = false → t.draws = s.draws) ∧
  t.keys = s.keys ∧ t.halted = s.halted ∧ t.params = s.params ∧ t.schedule = s.schedule

/-- The addresses `base`, …, `base + count - 1`. -/
def addressRange (base count : Nat) : List Nat := (List.range count).map (base + ·)

/-- The registers V0 to VX. -/
def regsUpTo (x : Reg) : List Reg := (List.finRange 16).filter (· ≤ x)

/-- The sprite DRW Vx, Vy, N draws in this state has a 1 bit at column `col` of row `r` (R241, R243). -/
def SpriteHasBit (s : State) (n : Nibble) (r col : Nat) : Prop :=
  r < n.val ∧ col < 8 ∧ (s.mem.read (effAddr s r)).getLsbD (7 - col) = true

/-- That sprite has a 1 bit over the cell at column `cx` and row `cy`, coordinates wrapped (R240, R243). -/
def SpriteCovers (s : State) (x y : Reg) (n : Nibble) (cx : Fin 64) (cy : Fin 32) : Prop :=
  ∃ r col : Nat, SpriteHasBit s n r col ∧
    ((s.getV x).toNat + col) % 64 = cx.val ∧ ((s.getV y).toNat + r) % 32 = cy.val

end Sys2Proof.Machine
end

