-- ==== Sys2Proof/Certificates/Slice0/Obligations.lean ====
section
/-! DEFINITION. The statements for the provers. Each formalises rules of spec/ in the rules' own numbers; `exec` runs
an instruction on the state after its fetch, where pc is already the instruction's address plus 2 (00_scope.md R11). -/

open Sys2Proof Sys2Proof.Machine

/-! ### Encoding (30_encoding.md) -/

/-- Every well-formed instruction is read back from its own word (R94; the opcode numbers are the spec's G1, log 11). -/
def Obligations.DecodeOfEncodeIsTheInstruction : Prop :=
  ∀ i : Instr, i.wf = true → decodeWord (encode i) = .instr i

/-- Each word that decodes to an instruction is that instruction's own word, and the instruction is well-formed: no word
has two meanings and no fixed bit is left unread (R94; D6, log 12). -/
def Obligations.DecodedWordIsTheEncoding : Prop :=
  ∀ (w : Word) (i : Instr), decodeWord w = .instr i → i.wf = true ∧ encode i = w

/-- The illegal words are exactly those R95 lists, and executing one halts with the raw word. That every fixed nibble
must match is the spec's own decision (D6; log 12). -/
def Obligations.UnsupportedWordsAreThoseListed : Prop :=
  (∀ (w : Word) (s : State),
    execDecoded (.unsupported w) s = .next { s with halted := some (.unsupportedInstruction w) }) ∧
  ∀ w u : Word, decodeWord w = .unsupported u ↔
    u = w ∧
    (((w.toNat / 4096 = 0x5 ∨ w.toNat / 4096 = 0x9) ∧ w.toNat % 16 ≠ 0) ∨
     (w.toNat / 4096 = 0x8 ∧ w.toNat % 16 ∈ [0x8, 0x9, 0xA, 0xB, 0xC, 0xD, 0xF]) ∨
     (w.toNat / 4096 = 0xE ∧ w.toNat % 256 ∉ [0x9E, 0xA1]) ∨
     (w.toNat / 4096 = 0xF ∧ w.toNat % 256 ∉ [0x07, 0x0A, 0x15, 0x18, 0x1E, 0x29, 0x33, 0x55, 0x65]))

/-- The word of every form, as R94 writes its pattern, decodes to that form and is what the encoder gives. The opcode
numbers are PRESUMED by the spec (general knowledge, G1; log 11). -/
def Obligations.EveryFormHasItsWord : Prop :=
  HasWord .cls 0x00E0 ∧ HasWord .ret 0x00EE ∧
  (∀ nnn : Addr12, nnn ≠ 0x0E0 → nnn ≠ 0x0EE → HasWord (.sys nnn) nnn.toNat) ∧
  (∀ nnn : Addr12,
    HasWord (.jp nnn) (0x1000 + nnn.toNat) ∧ HasWord (.call nnn) (0x2000 + nnn.toNat) ∧
    HasWord (.ldI nnn) (0xA000 + nnn.toNat) ∧ HasWord (.jpV0 nnn) (0xB000 + nnn.toNat)) ∧
  (∀ (x : Reg) (nn : Byte),
    HasWord (.seImm x nn) (0x3000 + 0x100 * x.val + nn.toNat) ∧
    HasWord (.sneImm x nn) (0x4000 + 0x100 * x.val + nn.toNat) ∧
    HasWord (.ldImm x nn) (0x6000 + 0x100 * x.val + nn.toNat) ∧
    HasWord (.addImm x nn) (0x7000 + 0x100 * x.val + nn.toNat) ∧
    HasWord (.rnd x nn) (0xC000 + 0x100 * x.val + nn.toNat)) ∧
  (∀ x y : Reg,
    HasWord (.seReg x y) (0x5000 + 0x100 * x.val + 0x10 * y.val) ∧
    HasWord (.sneReg x y) (0x9000 + 0x100 * x.val + 0x10 * y.val) ∧
    HasWord (.ldReg x y) (0x8000 + 0x100 * x.val + 0x10 * y.val) ∧
    HasWord (.orReg x y) (0x8001 + 0x100 * x.val + 0x10 * y.val) ∧
    HasWord (.andReg x y) (0x8002 + 0x100 * x.val + 0x10 * y.val) ∧
    HasWord (.xorReg x y) (0x8003 + 0x100 * x.val + 0x10 * y.val) ∧
    HasWord (.addReg x y) (0x8004 + 0x100 * x.val + 0x10 * y.val) ∧
    HasWord (.sub x y) (0x8005 + 0x100 * x.val + 0x10 * y.val) ∧
    HasWord (.shr x y) (0x8006 + 0x100 * x.val + 0x10 * y.val) ∧
    HasWord (.subn x y) (0x8007 + 0x100 * x.val + 0x10 * y.val) ∧
    HasWord (.shl x y) (0x800E + 0x100 * x.val + 0x10 * y.val)) ∧
  (∀ (x y : Reg) (n : Nibble), HasWord (.drw x y n) (0xD000 + 0x100 * x.val + 0x10 * y.val + n.val)) ∧
  (∀ x : Reg,
    HasWord (.skp x) (0xE09E + 0x100 * x.val) ∧ HasWord (.sknp x) (0xE0A1 + 0x100 * x.val) ∧
    HasWord (.ldVxDt x) (0xF007 + 0x100 * x.val) ∧ HasWord (.ldVxK x) (0xF00A + 0x100 * x.val) ∧
    HasWord (.ldDtVx x) (0xF015 + 0x100 * x.val) ∧ HasWord (.ldStVx x) (0xF018 + 0x100 * x.val) ∧
    HasWord (.addI x) (0xF01E + 0x100 * x.val) ∧ HasWord (.ldF x) (0xF029 + 0x100 * x.val) ∧
    HasWord (.ldB x) (0xF033 + 0x100 * x.val) ∧ HasWord (.ldMemRegs x) (0xF055 + 0x100 * x.val) ∧
    HasWord (.ldRegsMem x) (0xF065 + 0x100 * x.val))

/-- Words written out bit by bit from the `encoding` strings of the opcode table, one or more of each format. The opcode
numbers are PRESUMED by the spec (G1; log 11). -/
def Obligations.WordsWrittenFromTheTableDecode : Prop :=
  decodeWord 0b0000000011100000#16 = .instr .cls ∧
  decodeWord 0b0000000011101110#16 = .instr .ret ∧
  decodeWord 0b0001101010111100#16 = .instr (.jp 0xABC) ∧
  decodeWord 0b0011001101000010#16 = .instr (.seImm 3 0x42) ∧
  decodeWord 0b1000000100100100#16 = .instr (.addReg 1 2) ∧
  decodeWord 0b1101000100100101#16 = .instr (.drw 1 2 5) ∧
  decodeWord 0b1110001010011110#16 = .instr (.skp 2) ∧
  decodeWord 0b1111001001010101#16 = .instr (.ldMemRegs 2)

/-! ### The step (40_execution_cycle.md) -/

/-- Where the host calls Step, the machine is not halted, both bytes at pc lie in memory and their word decodes to an
instruction, the step is that instruction run on the state with pc moved past it (R121). That the calls come from the
schedule, which moves on, is the model's form (log 2). -/
def Obligations.StepRunsTheInstructionAtPc : Prop :=
  ∀ (s : State) (i : Instr), s.HostCalls .step → s.halted = none → s.pc.toNat + 1 ≤ 0xFFF →
    decodeWord (BitVec.ofNat 16 (256 * (s.mem.read s.pc.toNat).toNat + (s.mem.read (s.pc.toNat + 1)).toNat)) = .instr i →
    step s = exec i s.fetched

/-- A fetch that would read past 0xFFF halts with the lowest such address and leaves pc where it is (R90). The address
recorded and the kept pc are the spec's decisions (D4, D24; log 15), and the halt as a next state is the model's
(log 1). -/
def Obligations.FetchPastMemoryHalts : Prop :=
  ∀ s : State, s.HostCalls .step → s.halted = none → s.pc.toNat + 1 > 0xFFF →
    step s = .next { s.hostTurn with halted := some (.memoryOutOfBounds (max s.pc.toNat 0x1000)) }

/-- An illegal word halts with the raw word; pc is past it and nothing else changes (R95, R304). The state a halt
leaves is the spec's decision (D4; log 15), and the halt as a next state is the model's (log 1). -/
def Obligations.IllegalWordHaltsWithTheRawWord : Prop :=
  ∀ (s : State) (w : Word), s.HostCalls .step → s.halted = none → s.pc.toNat + 1 ≤ 0xFFF →
    w.toNat = 256 * (s.mem.read s.pc.toNat).toNat + (s.mem.read (s.pc.toNat + 1)).toNat →
    (∀ i : Instr, decodeWord w ≠ .instr i) →
    step s = .next { s.fetched with halted := some (.unsupportedInstruction w) }

/-- A Step on a halted machine changes nothing and returns the same halt again (R305; the sticky halt is D5, log 1). That
the call is used up from the schedule is the model's form (log 2). -/
def Obligations.StepOnHaltedMachineReportsTheHalt : Prop :=
  ∀ (s : State) (r : HaltReason), s.HostCalls .step → s.halted = some r →
    step s = .next s.hostTurn ∧ stepResult s.hostTurn = .halt r

/-- Whatever the host does after a halt, `halted` keeps its reason, and only the timers and K change (R35, R305). That a
halted machine runs no instruction is the spec's decision (D5; log 1). -/
def Obligations.HaltedMachineKeepsItsState : Prop :=
  ∀ (s t : State) (r : HaltReason), s.halted = some r → Reaches s t →
    t = { s with dt := t.dt, st := t.st, keys := t.keys, schedule := t.schedule }

/-- Tick counts both timers down by one, clamped at zero, and changes nothing else, halted or not (R320). That the call
comes from the schedule, which moves on, is the model's form (log 2). -/
def Obligations.TickCountsBothTimersDown : Prop :=
  ∀ s : State, s.HostCalls .tick →
    ∃ t, step s = .next t ∧ t.dt.toNat = s.dt.toNat - 1 ∧ t.st.toNat = s.st.toNat - 1 ∧ t.pc = s.pc ∧
      Frame { dt := true, st := true } s.hostTurn t

/-- KeyDown sets the code's bit of K, KeyUp clears it, and nothing else changes (R125). That a code above 15 is refused is
the spec's decision (D16; log 10), and that the call comes from the schedule, which moves on, is the model's form
(log 2). -/
def Obligations.KeyEventsSetAndClearOneBit : Prop :=
  ∀ (s : State) (code : Nat),
    (s.HostCalls (.keyDown code) → code < 16 →
      ∃ t, step s = .next t ∧ (∀ k, k < 16 → t.keys.getLsbD k = (decide (k = code) || s.keys.getLsbD k)) ∧
        t = { s.hostTurn with keys := t.keys }) ∧
    (s.HostCalls (.keyUp code) → code < 16 →
      ∃ t, step s = .next t ∧ (∀ k, k < 16 → t.keys.getLsbD k = (!decide (k = code) && s.keys.getLsbD k)) ∧
        t = { s.hostTurn with keys := t.keys }) ∧
    (s.HostCalls (.keyDown code) ∨ s.HostCalls (.keyUp code) → code ≥ 16 →
      step s = .refused (.keyCodeOutOfRange code))

/-- ReadFramebuffer returns FB cell by cell and changes no state (R126). That the call comes from the schedule, which
moves on, is the model's form (log 2). -/
def Obligations.ReadFramebufferChangesNothing : Prop :=
  ∀ s : State, s.HostCalls .readFramebuffer →
    (∀ x y, fbGet (readFramebuffer s) x y = fbGet s.fb x y) ∧ step s = .next s.hostTurn

/-- Where the host's next call is in its interface, a step answers a next state, halted or not: no word is without a
rule, and no instruction is refused (R122, R124, R305). A halt is a next state by the model's choice (log 1). -/
def Obligations.EveryStepAnswers : Prop :=
  ∀ s : State, (nextHostOp s.schedule).Offered → ∃ t, step s = .next t

/-- Every halt is precise: the step that halts changes `halted`, the schedule and at most pc, which stays where the
fetch failed and is past the instruction otherwise (R128, R304). This is the spec's decision (D4; log 15). -/
def Obligations.HaltsArePrecise : Prop :=
  ∀ (s t : State) (r : HaltReason), step s = .next t → s.halted = none → t.halted = some r →
    t = { s with pc := if s.pc.toNat + 1 ≤ 0xFFF then s.pc + 2#16 else s.pc, halted := some r, schedule := t.schedule }

/-- Only SYS, RET, CALL, DRW, LD B, LD [I] and LD Vx,[I] can halt in execution, each with its own reason (R300). The
information recorded is the spec's decision (D24; log 15). -/
def Obligations.OnlySevenInstructionsHalt : Prop :=
  ∀ (i : Instr) (s t : State) (r : HaltReason), s.halted = none → exec i s = .next t → t.halted = some r →
    (∃ nnn, i = .sys nnn ∧ r = .unsupportedInstruction (BitVec.ofNat 16 nnn.toNat)) ∨
    (i = .ret ∧ r = .stackUnderflow) ∨
    (∃ nnn, i = .call nnn ∧ r = .stackOverflow) ∨
    ((∃ x y n, i = .drw x y n) ∨ (∃ x, i = .ldB x) ∨ (∃ x, i = .ldMemRegs x) ∨ (∃ x, i = .ldRegsMem x)) ∧
      r = .memoryOutOfBounds (max s.i.toNat 0x1000)

/-- A jump to itself, the normal end of a run, is left unchanged by every further Step, and a run from it never halts and
changes only what the host's other operations change (R127). The end of a run is the spec's decision (D25; log 22). -/
def Obligations.EndedStateIsLeftUnchanged : Prop :=
  ∀ s : State, s.Ended →
    (s.HostCalls .step → step s = .next s.hostTurn) ∧
    s.RunsSafely ∧
    ∀ t, Reaches s t → t = { s with dt := t.dt, st := t.st, keys := t.keys, schedule := t.schedule }

/-! ### Whole-machine rules -/

/-- Every step keeps the invariant: memory in canonical form (the model's form), at most 16 return addresses of at most
0x1000, pc at most 0x10FE (R27, R28, R142; D3 and D28, log 13 and log 21). -/
def Obligations.EveryStepKeepsTheMachineInvariant : Prop :=
  ∀ s t : State, s.Inv → step s = .next t → t.Inv

/-- The invariant holds right after launch. -/
def Obligations.LaunchStateMeetsTheMachineInvariant : Prop := State.reset.Inv

/-- What launch leaves, as the spec states it: pc, S, FB, K, `halted`. The zeros of V, I, DT and ST, the glyphs and
the zero bytes are the spec's own defaults (D1, D12, D13; log 6 to log 9). -/
def Obligations.LaunchStateHasTheLaunchValues : Prop :=
  State.reset.pc = 0x200 ∧ State.reset.stack = [] ∧ (∀ x y, fbGet State.reset.fb x y = false) ∧
  State.reset.keys = 0 ∧ State.reset.halted = none ∧
  (∀ r, State.reset.getV r = 0) ∧ State.reset.i = 0 ∧ State.reset.dt = 0 ∧ State.reset.st = 0 ∧
  (∀ a, 0x050 ≤ a → State.reset.mem.read a = 0) ∧ State.reset.mem.read 0x032 = 0xF0

/-- A launch places glyph byte a at a, ROM byte j at 0x200 + j and 0x00 elsewhere, and takes the register parameters
and the host's schedule, whatever they are; a ROM of more than 3584 bytes and an unreadable ROM give none (R340, R342,
R343, R344). Rejecting such a ROM, the 0x00 and K = 0 are the spec's decisions (D15, D13, D16; log 20, log 9, log 10), the
schedule the model's form of a free host (D17; log 2), and the invariant's canonical memory the model's own. -/
def Obligations.LaunchPlacesGlyphsAndRom : Prop :=
  ∀ (p : LaunchParams) (host : Schedule) (rom : List Byte),
    launch p host none = .error .romLoadFailure ∧
    (rom.length > 3584 → launch p host (some rom) = .error (.romTooLarge rom.length)) ∧
    (rom.length ≤ 3584 → ∃ s, launch p host (some rom) = .ok s ∧
      (∀ a : Fin 80, s.mem.read a.val = p.glyphs[a.val]) ∧
      (∀ j : Fin rom.length, s.mem.read (0x200 + j.val) = rom[j.val]) ∧
      (∀ a, (0x050 ≤ a ∧ a < 0x200) ∨ 0x200 + rom.length ≤ a → s.mem.read a = 0) ∧
      s.v = p.resetV ∧ s.i = p.resetI ∧ s.dt = p.resetDT ∧ s.st = p.resetST ∧ s.params = p.params ∧
      s.pc = 0x200 ∧ s.stack = [] ∧ (∀ x y, fbGet s.fb x y = false) ∧ s.keys = 0 ∧ s.halted = none ∧
      s.schedule = host ∧ s.Inv)

/-- Which instructions can change I, S, DT, ST, FB and memory, and that none changes K (R24, R28, R31, R32, R33, R61). -/
def Obligations.EachSpecialStateHasItsWriters : Prop :=
  ∀ (i : Instr) (s t : State), exec i s = .next t →
    (t.i ≠ s.i → (∃ nnn, i = .ldI nnn) ∨ (∃ x, i = .addI x ∨ i = .ldF x ∨ i = .ldMemRegs x ∨ i = .ldRegsMem x)) ∧
    (t.stack ≠ s.stack → i = .ret ∨ ∃ nnn, i = .call nnn) ∧
    (t.dt ≠ s.dt → ∃ x, i = .ldDtVx x) ∧
    (t.st ≠ s.st → ∃ x, i = .ldStVx x) ∧
    (t.fb ≠ s.fb → i = .cls ∨ ∃ x y n, i = .drw x y n) ∧
    (t.mem ≠ s.mem → ∃ x, i = .ldB x ∨ i = .ldMemRegs x) ∧
    t.keys = s.keys

/-- VF changes only under the six flag writers and under an instruction that names VF as its destination (R21). That no
other form writes it is the spec's decision (D23; log 16). -/
def Obligations.VFHasOnlyItsWriters : Prop :=
  ∀ (i : Instr) (s t : State), exec i s = .next t → t.getV Reg.vF ≠ s.getV Reg.vF →
    (∃ x y, i = .addReg x y ∨ i = .sub x y ∨ i = .shr x y ∨ i = .subn x y ∨ i = .shl x y) ∨
    (∃ x y n, i = .drw x y n) ∨
    (∃ nn, i = .ldImm Reg.vF nn ∨ i = .addImm Reg.vF nn ∨ i = .rnd Reg.vF nn) ∨
    (∃ y, i = .ldReg Reg.vF y ∨ i = .orReg Reg.vF y ∨ i = .andReg Reg.vF y ∨ i = .xorReg Reg.vF y) ∨
    i = .ldVxDt Reg.vF ∨ i = .ldVxK Reg.vF ∨ i = .ldRegsMem Reg.vF

/-- Nothing but ST depends on ST: two machines that differ only there step alike, to states that differ only there
(R31; D18, log 24). -/
def Obligations.SoundTimerInfluencesNothingElse : Prop :=
  ∀ (s t : State) (b : Byte), step s = .next t → ∃ b', step { s with st := b } = .next { t with st := b' }

/-- No instruction but DRW reads FB: any other takes two machines that differ only in FB to states that differ only in FB
(R32). -/
def Obligations.FramebufferIsReadByDrawAlone : Prop :=
  ∀ (i : Instr) (s t : State) (fb : Framebuffer), (∀ x y n, i ≠ .drw x y n) → exec i s = .next t →
    ∃ fb', exec i { s with fb := fb } = .next { t with fb := fb' }

/-! ### Control flow (41_control_flow.md) -/

/-- SYS always halts with its own word (R141). What a halt leaves is the spec's decision (D4; log 15). -/
def Obligations.SysHaltsUnsupported : Prop :=
  ∀ (nnn : Addr12) (s : State),
    exec (.sys nnn) s = .next { s with halted := some (.unsupportedInstruction (BitVec.ofNat 16 nnn.toNat)) }

/-- RET pops pc, or halts on an empty stack with S and pc as they are after the fetch (R142). That a halt leaves all the
rest of the state is the spec's decision (D4; log 15), the halt as a next state the model's (log 1). -/
def Obligations.RetPopsThePc : Prop :=
  ∀ s : State,
    (∀ (a : Word) (rest : List Word), s.stack = a :: rest →
      ∃ t, exec .ret s = .next t ∧ t.pc = a ∧ t.stack = rest ∧ Frame { stack := true } s t) ∧
    (s.stack = [] → exec .ret s = .next { s with halted := some .stackUnderflow })

/-- JP NNN sets pc to the 12-bit address and nothing else (R143). -/
def Obligations.JpSetsPc : Prop :=
  ∀ (nnn : Addr12) (s : State),
    ∃ t, exec (.jp nnn) s = .next t ∧ t.pc.toNat = nnn.toNat ∧ Frame {} s t

/-- CALL NNN pushes pc, the address after the call, and jumps; at depth 16 it halts with S unchanged (R144). That an
entry holds 16 bits is the spec's decision (D28; log 21), and so is that a halt leaves all the rest of the state (D4;
log 15). -/
def Obligations.CallPushesTheReturnAddress : Prop :=
  ∀ (nnn : Addr12) (s : State),
    (s.stack.length ≤ 15 →
      ∃ t, exec (.call nnn) s = .next t ∧ t.pc.toNat = nnn.toNat ∧ t.stack = s.pc :: s.stack ∧
        Frame { stack := true } s t) ∧
    (s.stack.length ≥ 16 → exec (.call nnn) s = .next { s with halted := some .stackOverflow })

/-- Two Steps, a CALL and the RET it reaches, come back to the address after the CALL with the stack, and every other part
of the state, as it was (R142, R144). The words of the two forms are the spec's G1 (log 11). -/
def Obligations.CallThenReturnResumes : Prop :=
  ∀ (s : State) (nnn : Addr12), s.schedule = .steps → s.halted = none → s.pc.toNat + 1 ≤ 0xFFF → s.stack.length ≤ 15 →
    fetchWord s = BitVec.ofNat 16 (0x2000 + nnn.toNat) → nnn.toNat + 1 ≤ 0xFFF →
    s.mem.read nnn.toNat = 0x00 → s.mem.read (nnn.toNat + 1) = 0xEE →
    ∃ t u, step s = .next t ∧ t.pc.toNat = nnn.toNat ∧ t.stack = (s.pc + 2#16) :: s.stack ∧
      step t = .next u ∧ u = { s with pc := s.pc + 2#16 }

/-- SE and SNE against an immediate (R145, R146). -/
def Obligations.ImmediateSkipsCompare : Prop :=
  ∀ (x : Reg) (nn : Byte) (s : State),
    (∃ t, exec (.seImm x nn) s = .next t ∧ Frame {} s t ∧
      t.pc = if (s.getV x).toNat = nn.toNat then s.pc + 2#16 else s.pc) ∧
    (∃ t, exec (.sneImm x nn) s = .next t ∧ Frame {} s t ∧
      t.pc = if (s.getV x).toNat = nn.toNat then s.pc else s.pc + 2#16)

/-- SE and SNE between registers (R147, R148; the illegal variants of their words are D6, log 12). -/
def Obligations.RegisterSkipsCompare : Prop :=
  ∀ (x y : Reg) (s : State),
    (∃ t, exec (.seReg x y) s = .next t ∧ Frame {} s t ∧
      t.pc = if (s.getV x).toNat = (s.getV y).toNat then s.pc + 2#16 else s.pc) ∧
    (∃ t, exec (.sneReg x y) s = .next t ∧ Frame {} s t ∧
      t.pc = if (s.getV x).toNat = (s.getV y).toNat then s.pc else s.pc + 2#16)

/-- JP V0, NNN: the sum is not reduced (R149). This is the spec's decision (D3; log 13). -/
def Obligations.JpV0AddsV0ToTheAddress : Prop :=
  ∀ (nnn : Addr12) (s : State),
    ∃ t, exec (.jpV0 nnn) s = .next t ∧ t.pc.toNat = nnn.toNat + (s.getV 0).toNat ∧ Frame {} s t

/-! ### Register arithmetic (42_alu.md) -/

/-- LD Vx, NN (R174). -/
def Obligations.LdImmLoadsTheByte : Prop :=
  ∀ (x : Reg) (nn : Byte) (s : State),
    ∃ t, exec (.ldImm x nn) s = .next t ∧ t.getV x = nn ∧ t.pc = s.pc ∧ Frame { regs := [x] } s t

/-- ADD Vx, NN: modulo 256 (R175). That VF is not written is the spec's decision (D23; log 16). -/
def Obligations.AddImmWraps : Prop :=
  ∀ (x : Reg) (nn : Byte) (s : State),
    ∃ t, exec (.addImm x nn) s = .next t ∧ (t.getV x).toNat = ((s.getV x).toNat + nn.toNat) % 256 ∧
      t.pc = s.pc ∧ Frame { regs := [x] } s t

/-- LD Vx, Vy (R176). -/
def Obligations.LdRegCopies : Prop :=
  ∀ (x y : Reg) (s : State),
    ∃ t, exec (.ldReg x y) s = .next t ∧ t.getV x = s.getV y ∧ t.pc = s.pc ∧ Frame { regs := [x] } s t

/-- OR, AND and XOR, bit by bit (R177, R178, R179). That VF is not reset is the spec's decision (D23; log 16). -/
def Obligations.LogicWorksBitByBit : Prop :=
  ∀ (x y : Reg) (s : State),
    (∃ t, exec (.orReg x y) s = .next t ∧ t.pc = s.pc ∧ Frame { regs := [x] } s t ∧
      ∀ k, k < 8 → (t.getV x).getLsbD k = ((s.getV x).getLsbD k || (s.getV y).getLsbD k)) ∧
    (∃ t, exec (.andReg x y) s = .next t ∧ t.pc = s.pc ∧ Frame { regs := [x] } s t ∧
      ∀ k, k < 8 → (t.getV x).getLsbD k = ((s.getV x).getLsbD k && (s.getV y).getLsbD k)) ∧
    (∃ t, exec (.xorReg x y) s = .next t ∧ t.pc = s.pc ∧ Frame { regs := [x] } s t ∧
      ∀ k, k < 8 → (t.getV x).getLsbD k = ((s.getV x).getLsbD k != (s.getV y).getLsbD k))

/-- ADD Vx, Vy: the sum modulo 256 and the carry, VF last, from the operands as they were (R22, R171, R180). The order of
the writes is the spec's decision (D9), the carry's meaning its general knowledge (G5; log 16). -/
def Obligations.AddRegCarriesIntoVF : Prop :=
  ∀ (x y : Reg) (s : State),
    ∃ t, exec (.addReg x y) s = .next t ∧
      (x ≠ Reg.vF → (t.getV x).toNat = ((s.getV x).toNat + (s.getV y).toNat) % 256) ∧
      (t.getV Reg.vF).toNat = (if (s.getV x).toNat + (s.getV y).toNat > 255 then 1 else 0) ∧
      t.pc = s.pc ∧ Frame { regs := [x, Reg.vF] } s t

/-- SUB Vx, Vy: V[X] - V[Y] modulo 256 and the flag of each SUB_FLAG, VF last (R171, R172, R181). SUB_FLAG is open in the
spec (D8; log 5), and the claim covers each of its values; the order of the writes is D9 (log 16). -/
def Obligations.SubSubtractsAndFlags : Prop :=
  ∀ (x y : Reg) (s : State),
    ∃ t, exec (.sub x y) s = .next t ∧
      (x ≠ Reg.vF → (t.getV x).toNat = (256 + (s.getV x).toNat - (s.getV y).toNat) % 256) ∧
      (s.params.subFlag = .ge → (t.getV Reg.vF).toNat = if (s.getV x).toNat ≥ (s.getV y).toNat then 1 else 0) ∧
      (s.params.subFlag = .gt → (t.getV Reg.vF).toNat = if (s.getV x).toNat > (s.getV y).toNat then 1 else 0) ∧
      (s.params.subFlag = .borrow → (t.getV Reg.vF).toNat = if (s.getV x).toNat < (s.getV y).toNat then 1 else 0) ∧
      t.pc = s.pc ∧ Frame { regs := [x, Reg.vF] } s t

/-- SUBN Vx, Vy: V[Y] - V[X] modulo 256 and the flag of each SUB_FLAG, VF last (R171, R172, R183). SUB_FLAG is open in
the spec (D8; log 5), and the claim covers each of its values; the order of the writes is D9 (log 16). -/
def Obligations.SubnSubtractsReversedAndFlags : Prop :=
  ∀ (x y : Reg) (s : State),
    ∃ t, exec (.subn x y) s = .next t ∧
      (x ≠ Reg.vF → (t.getV x).toNat = (256 + (s.getV y).toNat - (s.getV x).toNat) % 256) ∧
      (s.params.subFlag = .ge → (t.getV Reg.vF).toNat = if (s.getV y).toNat ≥ (s.getV x).toNat then 1 else 0) ∧
      (s.params.subFlag = .gt → (t.getV Reg.vF).toNat = if (s.getV y).toNat > (s.getV x).toNat then 1 else 0) ∧
      (s.params.subFlag = .borrow → (t.getV Reg.vF).toNat = if (s.getV y).toNat < (s.getV x).toNat then 1 else 0) ∧
      t.pc = s.pc ∧ Frame { regs := [x, Reg.vF] } s t

/-- SHR Vx, Vy: the register SHIFT_SRC selects, halved into V[X]; VF is its bit 0, last (R171, R173, R182). SHIFT_SRC is
open in the spec (D7; log 4), and the claim covers both of its values; the order of the writes is D9 (log 16). -/
def Obligations.ShrHalvesAndFlags : Prop :=
  ∀ (x y : Reg) (s : State),
    ∃ t, exec (.shr x y) s = .next t ∧
      (x ≠ Reg.vF → (t.getV x).toNat = (s.getV (if s.params.shiftSrc = .x then x else y)).toNat / 2) ∧
      (t.getV Reg.vF).toNat = (s.getV (if s.params.shiftSrc = .x then x else y)).toNat % 2 ∧
      t.pc = s.pc ∧ Frame { regs := [x, Reg.vF] } s t

/-- SHL Vx, Vy: the register SHIFT_SRC selects, doubled modulo 256 into V[X]; VF is its bit 7, last (R171, R173, R184).
SHIFT_SRC is open in the spec (D7; log 4), and the claim covers both of its values; the order of the writes is D9
(log 16). -/
def Obligations.ShlDoublesAndFlags : Prop :=
  ∀ (x y : Reg) (s : State),
    ∃ t, exec (.shl x y) s = .next t ∧
      (x ≠ Reg.vF → (t.getV x).toNat = 2 * (s.getV (if s.params.shiftSrc = .x then x else y)).toNat % 256) ∧
      (t.getV Reg.vF).toNat = (s.getV (if s.params.shiftSrc = .x then x else y)).toNat / 128 ∧
      t.pc = s.pc ∧ Frame { regs := [x, Reg.vF] } s t

/-- RND Vx, NN: a byte of the random source, bit by bit AND NN, at most NN; one draw (R185). The source is open in the
spec (D21; log 3): the byte is a free value, which the claim does not look into. -/
def Obligations.RndMasksAFreeByte : Prop :=
  ∀ (x : Reg) (nn : Byte) (s : State),
    ∃ t, exec (.rnd x nn) s = .next t ∧
      (∀ k, k < 8 → (t.getV x).getLsbD k = ((Config.freeByte s.draws).getLsbD k && nn.getLsbD k)) ∧
      (t.getV x).toNat ≤ nn.toNat ∧ t.draws = s.draws + 1 ∧ t.pc = s.pc ∧ Frame { regs := [x], draws := true } s t

/-! ### Index and memory (43_index_memory.md) -/

/-- LD I, NNN (R211). -/
def Obligations.LdISetsTheIndex : Prop :=
  ∀ (nnn : Addr12) (s : State),
    ∃ t, exec (.ldI nnn) s = .next t ∧ t.i.toNat = nnn.toNat ∧ t.pc = s.pc ∧ Frame { index := true } s t

/-- ADD I, Vx: modulo 65536 and without a flag (R212). Both are the spec's decisions (D2, D23; log 14, log 16). -/
def Obligations.AddIWrapsAt65536 : Prop :=
  ∀ (x : Reg) (s : State),
    ∃ t, exec (.addI x) s = .next t ∧ t.i.toNat = (s.i.toNat + (s.getV x).toNat) % 65536 ∧ t.pc = s.pc ∧
      Frame { index := true } s t

/-- LD F, Vx: five times the full 8-bit value (R213). -/
def Obligations.LdFPointsAtTheGlyph : Prop :=
  ∀ (x : Reg) (s : State),
    ∃ t, exec (.ldF x) s = .next t ∧ t.i.toNat = (s.getV x).toNat * 5 ∧ t.pc = s.pc ∧ Frame { index := true } s t

/-- LD B, Vx: the three decimal digits, or a halt that writes nothing (R214). The halt's state is the spec's decision (D4;
log 15). The premise is a part of the machine's invariant: memory in canonical form. -/
def Obligations.LdBStoresTheDigits : Prop :=
  ∀ (x : Reg) (s : State), s.mem.wf = true →
    (s.i.toNat + 2 ≤ 0xFFF → ∃ t, exec (.ldB x) s = .next t ∧
      (t.mem.read (effAddr s 0)).toNat = (s.getV x).toNat / 100 ∧
      (t.mem.read (effAddr s 1)).toNat = (s.getV x).toNat / 10 % 10 ∧
      (t.mem.read (effAddr s 2)).toNat = (s.getV x).toNat % 10 ∧
      t.pc = s.pc ∧ Frame { stores := [effAddr s 0, effAddr s 1, effAddr s 2] } s t) ∧
    (s.i.toNat + 2 > 0xFFF →
      exec (.ldB x) s = .next { s with halted := some (.memoryOutOfBounds (max s.i.toNat 0x1000)) })

/-- LD [I], Vx: V0 to VX stored at I on, I advanced by X + 1, or a halt that writes nothing (R215). The wrap of I and the
halt's state are the spec's decisions (D2, D4; log 14, log 15). The premise is a part of the machine's invariant. -/
def Obligations.LdMemRegsStoresTheBlock : Prop :=
  ∀ (x : Reg) (s : State), s.mem.wf = true →
    (s.i.toNat + x.val ≤ 0xFFF → ∃ t, exec (.ldMemRegs x) s = .next t ∧
      (∀ k : Reg, k ≤ x → t.mem.read (effAddr s k.val) = s.getV k) ∧
      t.i.toNat = (s.i.toNat + x.val + 1) % 65536 ∧
      t.pc = s.pc ∧ Frame { index := true, stores := addressRange (effAddr s 0) (x.val + 1) } s t) ∧
    (s.i.toNat + x.val > 0xFFF →
      exec (.ldMemRegs x) s = .next { s with halted := some (.memoryOutOfBounds (max s.i.toNat 0x1000)) })

/-- LD Vx, [I]: V0 to VX loaded from I on, I advanced by X + 1, or a halt that writes nothing (R216). The wrap of I and
the halt's state are the spec's decisions (D2, D4; log 14, log 15). -/
def Obligations.LdRegsMemLoadsTheBlock : Prop :=
  ∀ (x : Reg) (s : State),
    (s.i.toNat + x.val ≤ 0xFFF → ∃ t, exec (.ldRegsMem x) s = .next t ∧
      (∀ k : Reg, k ≤ x → t.getV k = s.mem.read (effAddr s k.val)) ∧
      t.i.toNat = (s.i.toNat + x.val + 1) % 65536 ∧
      t.pc = s.pc ∧ Frame { index := true, regs := regsUpTo x } s t) ∧
    (s.i.toNat + x.val > 0xFFF →
      exec (.ldRegsMem x) s = .next { s with halted := some (.memoryOutOfBounds (max s.i.toNat 0x1000)) })

/-- A block stored and then loaded from the same address, whatever the registers hold in between, gives back the
registers, and I advances alike (R215, R216). The premise on memory is a part of the machine's invariant. -/
def Obligations.StoreThenLoadGivesTheRegistersBack : Prop :=
  ∀ (x : Reg) (s t u : State), s.mem.wf = true → s.i.toNat + x.val ≤ 0xFFF → exec (.ldMemRegs x) s = .next t →
    u.mem = t.mem → u.i = s.i →
    ∃ w, exec (.ldRegsMem x) u = .next w ∧ (∀ k : Reg, k ≤ x → w.getV k = s.getV k) ∧
      t.i.toNat = (s.i.toNat + x.val + 1) % 65536 ∧ w.i = t.i

/-- Where LD [I], Vx stores over both bytes pc points at, the word the next Step fetches is the two stored registers
(R62, R73). The premise on memory is a part of the machine's invariant. -/
def Obligations.FetchSeesTheStoredWord : Prop :=
  ∀ (x hi lo : Reg) (s t : State), s.mem.wf = true → s.i.toNat + x.val ≤ 0xFFF →
    s.pc.toNat = s.i.toNat + hi.val → lo.val = hi.val + 1 → lo ≤ x → exec (.ldMemRegs x) s = .next t →
    t.pc = s.pc ∧ (fetchWord t).toNat = 256 * (s.getV hi).toNat + (s.getV lo).toNat

/-! ### Display (44_display.md) -/

/-- CLS turns every cell off and changes nothing else (R242). -/
def Obligations.ClsTurnsEveryCellOff : Prop :=
  ∀ s : State, ∃ t, exec .cls s = .next t ∧ (∀ x y, fbGet t.fb x y = false) ∧ t.pc = s.pc ∧ Frame { fb := true } s t

/-- DRW: the loop over rows and columns comes to this: a cell under a 1 bit of the sprite is toggled, every other cell
stays, and VF says whether a lit cell lay under a 1 bit; or a halt that writes nothing (R243, R244). The bit order, the
origin's registers and the halt's state are the spec's decisions (D4, D11; log 15, log 18). -/
def Obligations.DrwTogglesTheCoveredCells : Prop :=
  ∀ (x y : Reg) (n : Nibble) (s : State),
    (n.val = 0 ∨ s.i.toNat + n.val - 1 ≤ 0xFFF → ∃ t, exec (.drw x y n) s = .next t ∧
      (∀ cx cy, SpriteCovers s x y n cx cy → fbGet t.fb cx cy = !fbGet s.fb cx cy) ∧
      (∀ cx cy, ¬ SpriteCovers s x y n cx cy → fbGet t.fb cx cy = fbGet s.fb cx cy) ∧
      ((∃ cx cy, SpriteCovers s x y n cx cy ∧ fbGet s.fb cx cy = true) → t.getV Reg.vF = 1) ∧
      ((¬ ∃ cx cy, SpriteCovers s x y n cx cy ∧ fbGet s.fb cx cy = true) → t.getV Reg.vF = 0) ∧
      t.pc = s.pc ∧ Frame { fb := true, regs := [Reg.vF] } s t) ∧
    (n.val ≠ 0 ∧ s.i.toNat + n.val - 1 > 0xFFF →
      exec (.drw x y n) s = .next { s with halted := some (.memoryOutOfBounds (max s.i.toNat 0x1000)) })

/-- Drawing the same sprite twice at the same origin restores FB, and the second draw collides exactly where the first
found a covered cell off (R243, R244; D11, log 18). The clause about VF follows R243, and R244's equation for c, against
R244's last sentence, which would set VF on every second draw: where the first draw found every covered cell lit, VF is
0 (DEDUCED, log 23). -/
def Obligations.DrawingTwiceRestoresTheFramebuffer : Prop :=
  ∀ (x y : Reg) (n : Nibble) (s t u : State), n.val = 0 ∨ s.i.toNat + n.val - 1 ≤ 0xFFF →
    exec (.drw x y n) s = .next t → u.fb = t.fb → u.mem = s.mem → u.i = s.i →
    u.getV x = s.getV x → u.getV y = s.getV y →
    ∃ w, exec (.drw x y n) u = .next w ∧ w.fb = s.fb ∧
      (w.getV Reg.vF = 1 ↔ ∃ cx cy, SpriteCovers s x y n cx cy ∧ fbGet s.fb cx cy = false)

/-- The last clause of R244 taken at its word: the second of two equal draws of a sprite with a 1 bit sets VF. It
fails where the first draw only turned cells off (log 23). -/
def Obligations.SecondDrawAlwaysCollides : Prop :=
  ∀ (x y : Reg) (n : Nibble) (s t u w : State), n.val = 0 ∨ s.i.toNat + n.val - 1 ≤ 0xFFF →
    (∃ r col, SpriteHasBit s n r col) →
    exec (.drw x y n) s = .next t → u.fb = t.fb → u.mem = s.mem → u.i = s.i →
    u.getV x = s.getV x → u.getV y = s.getV y →
    exec (.drw x y n) u = .next w → w.getV Reg.vF = 1

/-! ### Input and timers (45_input_timers.md) -/

/-- SKP and SKNP test the key the low four bits of V[X] name (R260, R261, R262). -/
def Obligations.KeySkipsTestTheNamedKey : Prop :=
  ∀ (x : Reg) (s : State),
    (∃ t, exec (.skp x) s = .next t ∧ Frame {} s t ∧
      t.pc = if s.keys.toNat / 2 ^ ((s.getV x).toNat % 16) % 2 = 1 then s.pc + 2#16 else s.pc) ∧
    (∃ t, exec (.sknp x) s = .next t ∧ Frame {} s t ∧
      t.pc = if s.keys.toNat / 2 ^ ((s.getV x).toNat % 16) % 2 = 0 then s.pc + 2#16 else s.pc)

/-- LD Vx, K: with no key held pc goes back by two and nothing else changes; else the low byte of the mask is loaded
(R263). The low byte is the spec's decision (D10; log 17). -/
def Obligations.KeyWaitRetriesOrLoadsTheMask : Prop :=
  ∀ (x : Reg) (s : State),
    (s.keys = 0#16 → ∃ t, exec (.ldVxK x) s = .next t ∧ t.pc = s.pc - 2#16 ∧ Frame {} s t) ∧
    (s.keys ≠ 0#16 → ∃ t, exec (.ldVxK x) s = .next t ∧ (t.getV x).toNat = s.keys.toNat % 256 ∧ t.pc = s.pc ∧
      Frame { regs := [x] } s t)

/-- LD Vx, DT; LD DT, Vx; LD ST, Vx (R264, R265, R266). Which form moves which timer is the spec's general knowledge (G2;
log 11). -/
def Obligations.TimerMovesCopyAByte : Prop :=
  ∀ (x : Reg) (s : State),
    (∃ t, exec (.ldVxDt x) s = .next t ∧ t.getV x = s.dt ∧ t.pc = s.pc ∧ Frame { regs := [x] } s t) ∧
    (∃ t, exec (.ldDtVx x) s = .next t ∧ t.dt = s.getV x ∧ t.pc = s.pc ∧ Frame { dt := true } s t) ∧
    (∃ t, exec (.ldStVx x) s = .next t ∧ t.st = s.getV x ∧ t.pc = s.pc ∧ Frame { st := true } s t)

/-- With no key held, a Step of LD Vx, K leaves the whole state as it was, so the run makes no progress until the host
presses a key (R263, R351). The word is the spec's G1 (log 11), the schedule the model's form (log 2). -/
def Obligations.KeyWaitStepMakesNoProgress : Prop :=
  ∀ (s : State) (x : Reg), s.HostCalls .step → s.halted = none → s.pc.toNat + 1 ≤ 0xFFF →
    s.keys = 0#16 → fetchWord s = BitVec.ofNat 16 (0xF00A + 0x100 * x.val) → step s = .next s.hostTurn

/-! ### Runs (40_execution_cycle.md R120) -/

/-- Every order of the host's calls is a run, from a halted machine too: any finite list of calls in the interface can come
first, with anything after it, and each is performed; and where the host is free, its calls go on without end, the
n-th being its n-th choice (R120, R305; D17). The schedule is the model's form of that order (log 2). -/
def Obligations.EveryInterleavingIsARun : Prop :=
  (∀ (s : State) (ops : List HostOp) (after : Schedule), (∀ op ∈ ops, op.Offered) →
    s.schedule = ops.foldr .first after → ∃ t, s.RunsTo ops.length t ∧ t.schedule = after) ∧
  ∀ (s : State) (n k : Nat), s.schedule = .free n →
    ∃ t, s.RunsTo k t ∧ t.schedule = .free (n + k) ∧ t.HostCalls (hostChoiceOp (Config.freeHostChoice (n + k)))
end

