-- ==== Sys2Proof/Laws/Display.lean ====
section
/-! SUPPORT. The sprite loops as one pass over the list of covered cells, no cell visited twice (44_display.md R244). -/

namespace Sys2Proof.Machine

/-- A cell read after a cell was set. -/
theorem fbGet_fbSet (fb : Framebuffer) (x cx : Fin 64) (y cy : Fin 32) (c : Bool) :
    fbGet (fbSet fb x y c) cx cy = if cx = x ∧ cy = y then c else fbGet fb cx cy := by
  by_cases hx : cx = x
  · subst hx
    by_cases hy : cy = y
    · subst hy; simp [fbGet, fbSet]
    · have hv : y.val ≠ cy.val := fun e => hy (Fin.ext e.symm)
      simp [fbGet, fbSet, hy, Vector.getElem_set_ne, hv]
  · have hv : x.val ≠ cx.val := fun e => hx (Fin.ext e.symm)
    simp [fbGet, fbSet, hx, Vector.getElem_set_ne, hv]

/-- Two framebuffers with the same cells are the same. -/
theorem fb_ext {fb fb' : Framebuffer} (h : ∀ x y, fbGet fb x y = fbGet fb' x y) : fb = fb' := by
  refine Vector.ext fun x hx => Vector.ext fun y hy => ?_
  exact h ⟨x, hx⟩ ⟨y, hy⟩

@[simp] theorem fbGet_fbClear (x : Fin 64) (y : Fin 32) : fbGet fbClear x y = false := by
  simp [fbGet, fbClear]

/-- A 1 bit over a cell: the cell is toggled and a lit cell is a collision. -/
def toggleCell (p : Framebuffer × Bool) (c : Fin 64 × Fin 32) : Framebuffer × Bool :=
  (fbSet p.1 c.1 c.2 (!fbGet p.1 c.1 c.2), p.2 || fbGet p.1 c.1 c.2)

/-- The cells under the 1 bits of one sprite row. -/
def rowCells (ox y : Nat) (b : Byte) : List (Fin 64 × Fin 32) :=
  ((List.range 8).filter (spriteBit b)).map fun col => (wrapX (ox + col), wrapY y)

/-- The cells under the 1 bits of a sprite. -/
def spriteCells (m : Memory) (base ox oy n : Nat) : List (Fin 64 × Fin 32) :=
  (List.range n).flatMap fun r => rowCells ox (oy + r) (m.read (base + r))

theorem drawRow_eq_foldl (ox y : Nat) (b : Byte) (p : Framebuffer × Bool) :
    drawRow ox y b p = (rowCells ox y b).foldl toggleCell p := by
  rw [rowCells, List.foldl_map, List.foldl_filter]
  rfl

/-- The draw is one pass over the covered cells. -/
theorem drawSprite_eq_foldl (m : Memory) (base ox oy n : Nat) (fb : Framebuffer) :
    drawSprite m base ox oy n fb = (spriteCells m base ox oy n).foldl toggleCell (fb, false) := by
  rw [spriteCells, List.foldl_flatMap]
  simp only [drawSprite, drawRow_eq_foldl]

/-- Which cells are covered. -/
theorem mem_spriteCells {m : Memory} {base ox oy n : Nat} {c : Fin 64 × Fin 32} :
    c ∈ spriteCells m base ox oy n ↔ ∃ r col, r < n ∧ col < 8 ∧ spriteBit (m.read (base + r)) col = true ∧
      wrapX (ox + col) = c.1 ∧ wrapY (oy + r) = c.2 := by
  simp only [spriteCells, rowCells, List.mem_flatMap, List.mem_range, List.mem_map, List.mem_filter, Prod.ext_iff]
  constructor
  · rintro ⟨r, hr, col, ⟨hc, hb⟩, hx, hy⟩
    exact ⟨r, col, hr, hc, hb, hx, hy⟩
  · rintro ⟨r, col, hr, hc, hb, hx, hy⟩
    exact ⟨r, hr, col, ⟨hc, hb⟩, hx, hy⟩

theorem rowCells_nodup (ox y : Nat) (b : Byte) : (rowCells ox y b).Nodup := by
  refine List.Nodup.map_on ?_ (List.nodup_range.filter _)
  intro c hc d hd h
  simp only [List.mem_filter, List.mem_range] at hc hd
  simp only [Prod.mk.injEq, wrapX, Fin.mk.injEq] at h
  omega

/-- No cell is visited twice: 8 columns are distinct modulo 64, and at most 32 rows modulo 32 (R244). -/
theorem spriteCells_nodup (m : Memory) (base ox oy : Nat) {n : Nat} (hn : n ≤ 32) :
    (spriteCells m base ox oy n).Nodup := by
  refine List.nodup_flatMap.mpr ⟨fun r _ => rowCells_nodup _ _ _, ?_⟩
  refine (List.nodup_range.imp_of_mem ?_)
  intro r q hr hq hne
  simp only [List.mem_range] at hr hq
  intro c hc hd
  simp only [rowCells, List.mem_map, wrapY] at hc hd
  obtain ⟨_, _, rfl⟩ := hc
  obtain ⟨_, _, he⟩ := hd
  simp only [Prod.mk.injEq, Fin.mk.injEq] at he
  omega

/-- A cell after a pass over distinct cells: toggled if it is one of them. -/
theorem foldl_toggleCell_get {l : List (Fin 64 × Fin 32)} : ∀ {p : Framebuffer × Bool}, l.Nodup →
    ∀ cx cy, fbGet (l.foldl toggleCell p).1 cx cy = (fbGet p.1 cx cy ^^ decide ((cx, cy) ∈ l)) := by
  induction l with
  | nil => intros; simp
  | cons c l ih =>
    intro p h cx cy
    obtain ⟨hnot, hl⟩ := List.nodup_cons.mp h
    rw [List.foldl_cons, ih hl]
    simp only [toggleCell, fbGet_fbSet]
    by_cases hc : (cx, cy) = c
    · subst hc; simp [hnot]
    · have hc' : ¬(cx = c.1 ∧ cy = c.2) := fun e => hc (Prod.ext e.1 e.2)
      simp [hc, hc']

/-- The collision after a pass over distinct cells: one of them was lit. -/
theorem foldl_toggleCell_collision {l : List (Fin 64 × Fin 32)} : ∀ {p : Framebuffer × Bool}, l.Nodup →
    ((l.foldl toggleCell p).2 = true ↔ p.2 = true ∨ ∃ c ∈ l, fbGet p.1 c.1 c.2 = true) := by
  induction l with
  | nil => intros; simp
  | cons c l ih =>
    intro p h
    obtain ⟨hnot, hl⟩ := List.nodup_cons.mp h
    have hsame : ∀ d ∈ l, fbGet (toggleCell p c).1 d.1 d.2 = fbGet p.1 d.1 d.2 := by
      intro d hd
      have hne : ¬(d.1 = c.1 ∧ d.2 = c.2) := fun e => hnot (Prod.ext e.1 e.2 ▸ hd)
      simp [toggleCell, fbGet_fbSet, hne]
    rw [List.foldl_cons, ih hl]
    simp only [List.mem_cons, exists_eq_or_imp]
    constructor
    · rintro (h2 | ⟨d, hd, hf⟩)
      · simp only [toggleCell, Bool.or_eq_true] at h2
        tauto
      · exact .inr (.inr ⟨d, hd, hsame d hd ▸ hf⟩)
    · rintro (h2 | h2 | ⟨d, hd, hf⟩)
      · exact .inl (by simp [toggleCell, h2])
      · exact .inl (by simp [toggleCell, h2])
      · exact .inr ⟨d, hd, (hsame d hd).trans hf⟩

/-- Every cell after a draw. -/
theorem drawSprite_get (m : Memory) (base ox oy : Nat) {n : Nat} (hn : n ≤ 32) (fb : Framebuffer)
    (cx : Fin 64) (cy : Fin 32) :
    fbGet (drawSprite m base ox oy n fb).1 cx cy =
      (fbGet fb cx cy ^^ decide ((cx, cy) ∈ spriteCells m base ox oy n)) := by
  rw [drawSprite_eq_foldl, foldl_toggleCell_get (spriteCells_nodup m base ox oy hn)]

/-- The collision of a draw. -/
theorem drawSprite_collision (m : Memory) (base ox oy : Nat) {n : Nat} (hn : n ≤ 32) (fb : Framebuffer) :
    (drawSprite m base ox oy n fb).2 = true ↔ ∃ c ∈ spriteCells m base ox oy n, fbGet fb c.1 c.2 = true := by
  rw [drawSprite_eq_foldl, foldl_toggleCell_collision (spriteCells_nodup m base ox oy hn)]
  simp

end Sys2Proof.Machine
end

