-- ==== Sys2Proof/Laws/Encode.lean ====
section
/-! SUPPORT. Fields of words: nibbles put together and taken apart again. -/

namespace Sys2Proof

/-- A nibble of a word as a number. -/
theorem nibbleAt_val (w : Word) (lo : Nat) : (nibbleAt w lo).val = w.toNat / 2 ^ lo % 16 := by
  simp [nibbleAt, BitVec.extractLsb'_toNat, Nat.shiftRight_eq_div_pow]

/-- The number of a packed word. -/
theorem packNibbles_toNat (n : Nibbles) :
    (packNibbles n).toNat = n.a.val * 4096 + n.b.val * 256 + n.c.val * 16 + n.d.val := by
  have := n.a.isLt; have := n.b.isLt; have := n.c.isLt; have := n.d.isLt
  simp only [packNibbles, BitVec.toNat_ofNat]
  omega

/-- Packed nibbles come apart as they were. -/
theorem nibbles_packNibbles (n : Nibbles) : nibbles (packNibbles n) = n := by
  obtain ⟨a, b, c, d⟩ := n
  have := a.isLt; have := b.isLt; have := c.isLt; have := d.isLt
  simp only [nibbles, Nibbles.mk.injEq, Fin.ext_iff, nibbleAt_val, packNibbles_toNat]
  omega

/-- A word is its nibbles packed. -/
theorem packNibbles_nibbles (w : Word) : packNibbles (nibbles w) = w := by
  have := w.isLt
  apply BitVec.eq_of_toNat_eq
  simp only [packNibbles_toNat, nibbles, nibbleAt_val]
  omega

theorem byteOf_toNat (c d : Nibble) : (byteOf c d).toNat = c.val * 16 + d.val := by
  have := c.isLt; have := d.isLt
  simp only [byteOf, BitVec.toNat_ofNat]
  omega

theorem addrOf_toNat (b c d : Nibble) : (addrOf b c d).toNat = b.val * 256 + c.val * 16 + d.val := by
  have := b.isLt; have := c.isLt; have := d.isLt
  simp only [addrOf, BitVec.toNat_ofNat]
  omega

/-- NN put together from its own nibbles. -/
@[simp] theorem byteOf_hi_lo (nn : Byte) : byteOf (byteHi nn) (byteLo nn) = nn := by
  apply BitVec.eq_of_toNat_eq
  simp only [byteOf_toNat, byteHi, byteLo]
  omega

/-- NNN put together from its own nibbles. -/
@[simp] theorem addrOf_nibblesA (a : Nibble) (nnn : Addr12) :
    addrOf (nibblesA a nnn).b (nibblesA a nnn).c (nibblesA a nnn).d = nnn := by
  apply BitVec.eq_of_toNat_eq
  simp only [addrOf_toNat, nibblesA]
  omega

@[simp] theorem byteHi_byteOf (c d : Nibble) : byteHi (byteOf c d) = c := by
  have := d.isLt
  simp only [byteHi, Fin.ext_iff, byteOf_toNat]
  omega

@[simp] theorem byteLo_byteOf (c d : Nibble) : byteLo (byteOf c d) = d := by
  have := d.isLt
  simp only [byteLo, Fin.ext_iff, byteOf_toNat]
  omega

@[simp] theorem nibblesA_addrOf (a b c d : Nibble) : nibblesA a (addrOf b c d) = ⟨a, b, c, d⟩ := by
  have := b.isLt; have := c.isLt; have := d.isLt
  simp only [nibblesA, Nibbles.mk.injEq, Fin.ext_iff, addrOf_toNat, true_and]
  refine ⟨?_, ?_, ?_⟩ <;> omega

/-- Decoding a packed word is the dispatch on its nibbles. -/
theorem decodeWord_packNibbles (n : Nibbles) : decodeWord (packNibbles n) = decodeNibbles (packNibbles n) n := by
  rw [decodeWord, nibbles_packNibbles]

/-- The word of two bytes as a number (R62). -/
theorem wordOfBytes_toNat (first second : Byte) :
    (wordOfBytes first second).toNat = 256 * first.toNat + second.toNat := by
  rw [wordOfBytes, BitVec.toNat_append, Nat.shiftLeft_eq, Nat.mul_comm, ← Nat.two_pow_add_eq_or_of_lt second.isLt]

end Sys2Proof
end

