-- ==== Sys2Proof/Laws/Memory.lean ====
section
/-! SUPPORT. The laws of memory: what a write reads back as, what it leaves alone, and that every memory operation
keeps the canonical form. -/

namespace Sys2Proof.Machine

/-- An address below every listed one reads as an unlisted address. -/
theorem Memory.read_of_lt {m : Memory} : ∀ {lo a : Nat}, Memory.wfFrom lo m = true → a < lo →
    m.read a = unlistedByte a := by
  induction m with
  | nil => intros; rfl
  | cons e m ih =>
    obtain ⟨a', b'⟩ := e
    intro lo a h hlt
    simp only [Memory.wfFrom, Bool.and_eq_true, decide_eq_true_eq] at h
    have hne : a ≠ a' := by omega
    simp only [Memory.read, hne, if_false]
    exact ih h.2 (by omega)

/-- Reading after one entry was put in front. -/
theorem Memory.read_cons (m : Memory) (a a' : Nat) (b : Byte) (h : m.read a = unlistedByte a) :
    (Memory.cons a b m).read a' = if a' = a then b else m.read a' := by
  unfold Memory.cons
  by_cases hb : b = unlistedByte a
  · by_cases ha : a' = a
    · subst ha; simp [hb, h]
    · simp [hb, ha]
  · simp [hb, Memory.read]

/-- Read after write, in a memory in canonical form. -/
theorem Memory.read_write {m : Memory} : ∀ {lo : Nat}, Memory.wfFrom lo m = true → ∀ (a a' : Nat) (b : Byte),
    (m.write a b).read a' = if a' = a then b else m.read a' := by
  induction m with
  | nil => intro lo _ a a' b; exact Memory.read_cons [] a a' b rfl
  | cons e m ih =>
    obtain ⟨a₀, b₀⟩ := e
    intro lo h a a' b
    have hw := h
    simp only [Memory.wfFrom, Bool.and_eq_true, decide_eq_true_eq] at h
    unfold Memory.write
    by_cases hlt : a < a₀
    · simp only [hlt, if_true]
      refine Memory.read_cons _ a a' b ?_
      have hne : a ≠ a₀ := by omega
      simp only [Memory.read, hne, if_false]
      exact Memory.read_of_lt h.2 (by omega)
    · by_cases heq : a = a₀
      · subst heq
        simp only [lt_irrefl, if_false, if_true]
        rw [Memory.read_cons m a a' b (Memory.read_of_lt h.2 (by omega))]
        by_cases ha : a' = a <;> simp [ha, Memory.read]
      · simp only [hlt, heq, if_false, Memory.read]
        by_cases ha : a' = a₀
        · have : a' ≠ a := by omega
          simp [ha, Ne.symm heq]
        · simp [ha, ih h.2 a a' b]

theorem Memory.wfFrom_mono {m : Memory} {lo lo' : Nat} (h : Memory.wfFrom lo m = true) (hle : lo' ≤ lo) :
    Memory.wfFrom lo' m = true := by
  cases m with
  | nil => rfl
  | cons e m =>
    obtain ⟨a, b⟩ := e
    simp only [Memory.wfFrom, Bool.and_eq_true, decide_eq_true_eq] at h ⊢
    exact ⟨⟨⟨by omega, h.1.1.2⟩, h.1.2⟩, h.2⟩

theorem Memory.wfFrom_cons {m : Memory} {lo a : Nat} (b : Byte) (hlo : lo ≤ a) (ha : a < 4096)
    (h : Memory.wfFrom (a + 1) m = true) : Memory.wfFrom lo (Memory.cons a b m) = true := by
  unfold Memory.cons
  by_cases hb : b = unlistedByte a
  · simpa [hb] using Memory.wfFrom_mono h (by omega)
  · simp [hb, Memory.wfFrom, hlo, h]; exact ha

theorem Memory.wfFrom_write {m : Memory} : ∀ {lo : Nat}, Memory.wfFrom lo m = true → ∀ {a : Nat} (b : Byte),
    lo ≤ a → a < 4096 → Memory.wfFrom lo (m.write a b) = true := by
  induction m with
  | nil => intro lo _ a b hlo ha; exact Memory.wfFrom_cons b hlo ha rfl
  | cons e m ih =>
    obtain ⟨a₀, b₀⟩ := e
    intro lo h a b hlo ha
    have hs := h
    simp only [Memory.wfFrom, Bool.and_eq_true, decide_eq_true_eq] at hs
    unfold Memory.write
    by_cases hlt : a < a₀
    · simp only [hlt, if_true]
      refine Memory.wfFrom_cons b hlo ha ?_
      simp only [Memory.wfFrom, Bool.and_eq_true, decide_eq_true_eq]
      exact ⟨⟨⟨by omega, hs.1.1.2⟩, hs.1.2⟩, hs.2⟩
    · by_cases heq : a = a₀
      · subst heq
        simp only [lt_irrefl, if_false, if_true]
        exact Memory.wfFrom_cons b hlo ha hs.2
      · simp only [hlt, heq, if_false, Memory.wfFrom, Bool.and_eq_true, decide_eq_true_eq]
        exact ⟨hs.1, ih hs.2 b (by omega) ha⟩

/-- A write inside the address space keeps the canonical form. -/
theorem Memory.wf_write {m : Memory} (h : m.wf = true) {a : Nat} (b : Byte) (ha : a < 4096) :
    (m.write a b).wf = true :=
  Memory.wfFrom_write h b (Nat.zero_le a) ha

/-- A block write inside the address space keeps the canonical form. -/
theorem Memory.wf_writeBlock {bs : List Byte} : ∀ {m : Memory} {base : Nat}, m.wf = true →
    base + bs.length ≤ 4096 → (m.writeBlock base bs).wf = true := by
  induction bs with
  | nil => intro m base h _; exact h
  | cons b bs ih =>
    intro m base h hb
    simp only [List.length_cons] at hb
    exact ih (Memory.wf_write h b (by omega)) (by omega)

/-- A block write leaves every address outside the block alone. -/
theorem Memory.read_writeBlock_outside {bs : List Byte} : ∀ {m : Memory} {base a : Nat}, m.wf = true →
    base + bs.length ≤ 4096 → (a < base ∨ base + bs.length ≤ a) → (m.writeBlock base bs).read a = m.read a := by
  induction bs with
  | nil => intros; rfl
  | cons b bs ih =>
    intro m base a h hb ha
    simp only [List.length_cons] at hb ha
    rw [Memory.writeBlock, ih (Memory.wf_write h b (by omega)) (by omega) (by omega), Memory.read_write h]
    have : a ≠ base := by omega
    simp [this]

/-- A block write puts the k-th byte at the k-th address. -/
theorem Memory.read_writeBlock_inside {bs : List Byte} : ∀ {m : Memory} {base k : Nat}, m.wf = true →
    base + bs.length ≤ 4096 → (hk : k < bs.length) → (m.writeBlock base bs).read (base + k) = bs[k] := by
  induction bs with
  | nil => intro m base k _ _ hk; exact absurd hk (Nat.not_lt_zero k)
  | cons b bs ih =>
    intro m base k h hb hk
    simp only [List.length_cons] at hb hk
    cases k with
    | zero =>
      rw [Memory.writeBlock, Memory.read_writeBlock_outside (Memory.wf_write h b (by omega)) (by omega) (by omega),
        Memory.read_write h]
      simp
    | succ k =>
      have hrw : base + (k + 1) = base + 1 + k := by omega
      rw [Memory.writeBlock, hrw, ih (Memory.wf_write h b (by omega)) (by omega) (by omega)]
      rfl

end Sys2Proof.Machine
end

