-- ==== Sys2Proof/Laws/State.lean ====
section
/-! SUPPORT. What each named update of State changes and what it leaves, field by field, so that no later proof
unfolds a record update. -/

namespace Sys2Proof.Machine

variable (s : State) (r q : Reg) (b f : Byte) (a t : Word) (c : Bool)

@[simp] theorem getV_setV_self : (s.setV r b).getV r = b := by simp [State.getV, State.setV]

theorem getV_setV_of_ne (h : q ≠ r) : (s.setV r b).getV q = s.getV q := by
  have hv : r.val ≠ q.val := fun e => h (Fin.ext e.symm)
  simp [State.getV, State.setV, Vector.getElem_set_ne, hv]

theorem getV_setV : (s.setV r b).getV q = if q = r then b else s.getV q := by
  by_cases h : q = r
  · subst h; simp
  · simp [h, getV_setV_of_ne]

@[simp] theorem setV_mem : (s.setV r b).mem = s.mem := rfl
@[simp] theorem setV_i : (s.setV r b).i = s.i := rfl
@[simp] theorem setV_pc : (s.setV r b).pc = s.pc := rfl
@[simp] theorem setV_stack : (s.setV r b).stack = s.stack := rfl
@[simp] theorem setV_dt : (s.setV r b).dt = s.dt := rfl
@[simp] theorem setV_st : (s.setV r b).st = s.st := rfl
@[simp] theorem setV_fb : (s.setV r b).fb = s.fb := rfl
@[simp] theorem setV_keys : (s.setV r b).keys = s.keys := rfl
@[simp] theorem setV_halted : (s.setV r b).halted = s.halted := rfl
@[simp] theorem setV_params : (s.setV r b).params = s.params := rfl
@[simp] theorem setV_draws : (s.setV r b).draws = s.draws := rfl
@[simp] theorem setV_schedule : (s.setV r b).schedule = s.schedule := rfl

@[simp] theorem setI_mem : (s.setI a).mem = s.mem := rfl
@[simp] theorem setI_v : (s.setI a).v = s.v := rfl
@[simp] theorem setI_getV : (s.setI a).getV r = s.getV r := rfl
@[simp] theorem setI_i : (s.setI a).i = a := rfl
@[simp] theorem setI_pc : (s.setI a).pc = s.pc := rfl
@[simp] theorem setI_stack : (s.setI a).stack = s.stack := rfl
@[simp] theorem setI_dt : (s.setI a).dt = s.dt := rfl
@[simp] theorem setI_st : (s.setI a).st = s.st := rfl
@[simp] theorem setI_fb : (s.setI a).fb = s.fb := rfl
@[simp] theorem setI_keys : (s.setI a).keys = s.keys := rfl
@[simp] theorem setI_halted : (s.setI a).halted = s.halted := rfl
@[simp] theorem setI_params : (s.setI a).params = s.params := rfl
@[simp] theorem setI_draws : (s.setI a).draws = s.draws := rfl
@[simp] theorem setI_schedule : (s.setI a).schedule = s.schedule := rfl

@[simp] theorem setPc_mem : (s.setPc t).mem = s.mem := rfl
@[simp] theorem setPc_v : (s.setPc t).v = s.v := rfl
@[simp] theorem setPc_getV : (s.setPc t).getV r = s.getV r := rfl
@[simp] theorem setPc_i : (s.setPc t).i = s.i := rfl
@[simp] theorem setPc_pc : (s.setPc t).pc = t := rfl
@[simp] theorem setPc_stack : (s.setPc t).stack = s.stack := rfl
@[simp] theorem setPc_dt : (s.setPc t).dt = s.dt := rfl
@[simp] theorem setPc_st : (s.setPc t).st = s.st := rfl
@[simp] theorem setPc_fb : (s.setPc t).fb = s.fb := rfl
@[simp] theorem setPc_keys : (s.setPc t).keys = s.keys := rfl
@[simp] theorem setPc_halted : (s.setPc t).halted = s.halted := rfl
@[simp] theorem setPc_params : (s.setPc t).params = s.params := rfl
@[simp] theorem setPc_draws : (s.setPc t).draws = s.draws := rfl
@[simp] theorem setPc_schedule : (s.setPc t).schedule = s.schedule := rfl

@[simp] theorem hostTurn_mem : s.hostTurn.mem = s.mem := rfl
@[simp] theorem hostTurn_v : s.hostTurn.v = s.v := rfl
@[simp] theorem hostTurn_i : s.hostTurn.i = s.i := rfl
@[simp] theorem hostTurn_pc : s.hostTurn.pc = s.pc := rfl
@[simp] theorem hostTurn_stack : s.hostTurn.stack = s.stack := rfl
@[simp] theorem hostTurn_dt : s.hostTurn.dt = s.dt := rfl
@[simp] theorem hostTurn_st : s.hostTurn.st = s.st := rfl
@[simp] theorem hostTurn_fb : s.hostTurn.fb = s.fb := rfl
@[simp] theorem hostTurn_keys : s.hostTurn.keys = s.keys := rfl
@[simp] theorem hostTurn_halted : s.hostTurn.halted = s.halted := rfl
@[simp] theorem hostTurn_params : s.hostTurn.params = s.params := rfl
@[simp] theorem hostTurn_draws : s.hostTurn.draws = s.draws := rfl
@[simp] theorem hostTurn_getV : s.hostTurn.getV r = s.getV r := rfl
@[simp] theorem hostTurn_schedule : s.hostTurn.schedule = scheduleRest s.schedule := rfl

/-- A skip is a write of pc and nothing else. -/
theorem skipIf_eq_setPc : s.skipIf c = s.setPc (if c then s.pc + 2#16 else s.pc) := by
  cases c <;> rfl

@[simp] theorem skipIf_pc : (s.skipIf c).pc = if c then s.pc + 2#16 else s.pc := by
  simp [skipIf_eq_setPc]

/-- The flag is what VF holds after the writes of a flag-writing operation, whatever X is (R22). -/
@[simp] theorem writeResultThenFlag_flag : (writeResultThenFlag r b f s).getV Reg.vF = f := by
  simp [writeResultThenFlag]

/-- The result is what V[X] holds where X is not F. -/
theorem writeResultThenFlag_result (h : r ≠ Reg.vF) : (writeResultThenFlag r b f s).getV r = b := by
  simp [writeResultThenFlag, getV_setV_of_ne _ _ _ _ h]

/-- No other register changes. -/
theorem writeResultThenFlag_other (hr : q ≠ r) (hf : q ≠ Reg.vF) :
    (writeResultThenFlag r b f s).getV q = s.getV q := by
  simp [writeResultThenFlag, getV_setV_of_ne, hr, hf]

@[simp] theorem writeResultThenFlag_mem : (writeResultThenFlag r b f s).mem = s.mem := rfl
@[simp] theorem writeResultThenFlag_i : (writeResultThenFlag r b f s).i = s.i := rfl
@[simp] theorem writeResultThenFlag_pc : (writeResultThenFlag r b f s).pc = s.pc := rfl
@[simp] theorem writeResultThenFlag_stack : (writeResultThenFlag r b f s).stack = s.stack := rfl
@[simp] theorem writeResultThenFlag_dt : (writeResultThenFlag r b f s).dt = s.dt := rfl
@[simp] theorem writeResultThenFlag_st : (writeResultThenFlag r b f s).st = s.st := rfl
@[simp] theorem writeResultThenFlag_fb : (writeResultThenFlag r b f s).fb = s.fb := rfl
@[simp] theorem writeResultThenFlag_keys : (writeResultThenFlag r b f s).keys = s.keys := rfl
@[simp] theorem writeResultThenFlag_halted : (writeResultThenFlag r b f s).halted = s.halted := rfl
@[simp] theorem writeResultThenFlag_params : (writeResultThenFlag r b f s).params = s.params := rfl
@[simp] theorem writeResultThenFlag_draws : (writeResultThenFlag r b f s).draws = s.draws := rfl
@[simp] theorem writeResultThenFlag_schedule : (writeResultThenFlag r b f s).schedule = s.schedule := rfl

/-- A flag byte as a number. -/
theorem flagByte_toNat (p : Prop) [Decidable p] : (flagByte (decide p)).toNat = if p then 1 else 0 := by
  by_cases h : p <;> simp [flagByte, h]

end Sys2Proof.Machine
end

