-- ==== Sys2Proof/Laws/Ops.lean ====
section
/-! SUPPORT. What each shared operation can do, said once. -/

namespace Sys2Proof.Machine

/-- The bounds check passes exactly when no byte is touched or the last one lies in memory. -/
theorem boundsHalt_eq_none_iff (base count : Nat) :
    boundsHalt base count = none ↔ count = 0 ∨ base + count ≤ 4096 := by
  unfold boundsHalt
  by_cases h : count = 0 ∨ base + count ≤ Config.memSize
  · simp only [h, if_true]
  · simp only [h, if_false, reduceCtorEq]

/-- Where it fails, the halt carries the lowest address past 0xFFF. -/
theorem boundsHalt_of_out {base count : Nat} (h : ¬(count = 0 ∨ base + count ≤ 4096)) :
    boundsHalt base count = some (.memoryOutOfBounds (max base 4096)) := by
  unfold boundsHalt
  rw [if_neg h]

theorem boundsHalt_of_in {base count : Nat} (h : count = 0 ∨ base + count ≤ 4096) : boundsHalt base count = none :=
  (boundsHalt_eq_none_iff base count).mpr h

/-- A bounds-checked instruction makes all its writes. -/
theorem ifInBounds_of_in {base count : Nat} (s w : State) (h : count = 0 ∨ base + count ≤ 4096) :
    ifInBounds base count s w = .next w := by
  simp [ifInBounds, boundsHalt_of_in h]

/-- Or it halts and makes none. -/
theorem ifInBounds_of_out {base count : Nat} (s w : State) (h : ¬(count = 0 ∨ base + count ≤ 4096)) :
    ifInBounds base count s w = .next { s with halted := some (.memoryOutOfBounds (max base 4096)) } := by
  simp [ifInBounds, boundsHalt_of_out h, takeHalt]

/-- Everything a bounds-checked instruction can answer. -/
theorem ifInBounds_cases {base count : Nat} {s w t : State} (h : ifInBounds base count s w = .next t) :
    ((count = 0 ∨ base + count ≤ 4096) ∧ t = w) ∨
    (¬(count = 0 ∨ base + count ≤ 4096) ∧ t = { s with halted := some (.memoryOutOfBounds (max base 4096)) }) := by
  by_cases hb : count = 0 ∨ base + count ≤ 4096
  · rw [ifInBounds_of_in s w hb] at h
    exact .inl ⟨hb, (Host.Outcome.next.inj h).symm⟩
  · rw [ifInBounds_of_out s w hb] at h
    exact .inr ⟨hb, (Host.Outcome.next.inj h).symm⟩

/-- A push below depth 16 (R29). -/
theorem push_of_room {a : Word} {s : State} (h : s.stack.length < 16) :
    push a s = .ok { s with stack := a :: s.stack } := if_pos h

/-- A push at depth 16 or more (R29). -/
theorem push_of_full {a : Word} {s : State} (h : 16 ≤ s.stack.length) : push a s = .error .stackOverflow :=
  if_neg (Nat.not_lt.mpr h)

/-- A pop of a stack with a top entry (R30). -/
theorem pop_of_cons {s : State} {a : Word} {rest : List Word} (h : s.stack = a :: rest) :
    pop s = .ok (a, { s with stack := rest }) := by
  simp [pop, h]

/-- A pop of an empty stack (R30). -/
theorem pop_of_nil {s : State} (h : s.stack = []) : pop s = .error .stackUnderflow := by
  simp [pop, h]

/-- A zero-extended address keeps its number. -/
@[simp] theorem addrOperand_toNat (nnn : Addr12) : (addrOperand nnn).toNat = nnn.toNat := by
  have := nnn.isLt
  simp only [addrOperand, BitVec.toNat_setWidth]
  omega

/-- A zero-extended byte keeps its number. -/
@[simp] theorem wide_toNat (b : Byte) : (wide b).toNat = b.toNat := by
  have := b.isLt
  simp only [wide, BitVec.toNat_setWidth]
  omega

/-- The offset target is the sum of the numbers: 16 bits hold it (R149). -/
theorem offsetTarget_toNat (nnn : Addr12) (s : State) :
    (offsetTarget nnn s).toNat = nnn.toNat + (s.getV 0).toNat := by
  have := nnn.isLt; have := (s.getV 0).isLt
  simp only [offsetTarget, BitVec.toNat_add, addrOperand_toNat, wide_toNat]
  omega

/-- The glyph address is five times the byte (R213). -/
theorem glyphAddr_toNat (b : Byte) : (glyphAddr b).toNat = b.toNat * 5 := by
  have := b.isLt
  simp only [glyphAddr, BitVec.toNat_mul, wide_toNat, BitVec.toNat_ofNat]
  omega

/-- I after a block operation (R210). -/
theorem blockNextI_toNat (s : State) (x : Reg) : (blockNextI s x).toNat = (s.i.toNat + x.val + 1) % 65536 := by
  have := x.isLt
  simp only [blockNextI, blockCount, BitVec.toNat_add, BitVec.toNat_ofNat]
  omega

@[simp] theorem effAddr_zero (s : State) : effAddr s 0 = s.i.toNat := rfl

theorem effAddr_eq (s : State) (k : Nat) : effAddr s k = s.i.toNat + k := rfl

@[simp] theorem blockBytes_length (s : State) (x : Reg) : (blockBytes s x).length = x.val + 1 := by
  have := x.isLt
  simp only [blockBytes, blockCount, List.length_take, Vector.length_toList]
  omega

/-- The k-th byte of the block is V[k] (R215). -/
theorem blockBytes_getElem (s : State) (x k : Reg) (h : k.val < (blockBytes s x).length) :
    (blockBytes s x)[k.val] = s.getV k := by
  simp [blockBytes, State.getV]

/-- The registers after a block load (R216). -/
theorem blockLoaded_getElem (s : State) (x k : Reg) :
    (blockLoaded s x)[k.val] = if k ≤ x then s.mem.read (effAddr s k.val) else s.getV k := by
  simp only [blockLoaded, Vector.getElem_ofFn]
  rfl

/-- A timer's number after a tick (R320). -/
theorem countDown_toNat (t : Byte) : (countDown t).toNat = t.toNat - 1 := by
  unfold countDown
  by_cases h : t = 0#8
  · subst h; rfl
  · have h' : t.toNat ≠ 0 := fun e => h (BitVec.eq_of_toNat_eq e)
    have := t.isLt
    rw [if_neg h, BitVec.toNat_sub, BitVec.toNat_ofNat]
    omega

end Sys2Proof.Machine
end

