-- ==== Sys2Proof/Laws/PerInstr.lean ====
section
/-! SUPPORT. Per-instruction lemmas, one per constructor: the nibbles that the opcode table fixes for a row are those
of the instruction's word. -/

namespace Sys2Proof.Laws.FixedNibbles

/-- A fixed nibble of a row's `encoding` string, where the row fixes that nibble. -/
def Fixes (p : Option Nibble) (n : Nibble) : Prop := ∀ q, p = some q → n = q

/-- The nibbles A, B, C, D that the row of an instruction fixes (30_encoding.md R94; opcode_table.json). -/
def fixed : Instr → Option Nibble × Option Nibble × Option Nibble × Option Nibble
  | .cls => (some 0x0, some 0x0, some 0xE, some 0x0)
  | .ret => (some 0x0, some 0x0, some 0xE, some 0xE)
  | .sys _ => (some 0x0, none, none, none)
  | .jp _ => (some 0x1, none, none, none)
  | .call _ => (some 0x2, none, none, none)
  | .seImm _ _ => (some 0x3, none, none, none)
  | .sneImm _ _ => (some 0x4, none, none, none)
  | .seReg _ _ => (some 0x5, none, none, some 0x0)
  | .ldImm _ _ => (some 0x6, none, none, none)
  | .addImm _ _ => (some 0x7, none, none, none)
  | .ldReg _ _ => (some 0x8, none, none, some 0x0)
  | .orReg _ _ => (some 0x8, none, none, some 0x1)
  | .andReg _ _ => (some 0x8, none, none, some 0x2)
  | .xorReg _ _ => (some 0x8, none, none, some 0x3)
  | .addReg _ _ => (some 0x8, none, none, some 0x4)
  | .sub _ _ => (some 0x8, none, none, some 0x5)
  | .shr _ _ => (some 0x8, none, none, some 0x6)
  | .subn _ _ => (some 0x8, none, none, some 0x7)
  | .shl _ _ => (some 0x8, none, none, some 0xE)
  | .sneReg _ _ => (some 0x9, none, none, some 0x0)
  | .ldI _ => (some 0xA, none, none, none)
  | .jpV0 _ => (some 0xB, none, none, none)
  | .rnd _ _ => (some 0xC, none, none, none)
  | .drw _ _ _ => (some 0xD, none, none, none)
  | .skp _ => (some 0xE, none, some 0x9, some 0xE)
  | .sknp _ => (some 0xE, none, some 0xA, some 0x1)
  | .ldVxDt _ => (some 0xF, none, some 0x0, some 0x7)
  | .ldVxK _ => (some 0xF, none, some 0x0, some 0xA)
  | .ldDtVx _ => (some 0xF, none, some 0x1, some 0x5)
  | .ldStVx _ => (some 0xF, none, some 0x1, some 0x8)
  | .addI _ => (some 0xF, none, some 0x1, some 0xE)
  | .ldF _ => (some 0xF, none, some 0x2, some 0x9)
  | .ldB _ => (some 0xF, none, some 0x3, some 0x3)
  | .ldMemRegs _ => (some 0xF, none, some 0x5, some 0x5)
  | .ldRegsMem _ => (some 0xF, none, some 0x6, some 0x5)

/-- The word of an instruction has the nibbles its row fixes. -/
def Statement (i : Instr) : Prop :=
  Fixes (fixed i).1 (nibbles (encode i)).a ∧ Fixes (fixed i).2.1 (nibbles (encode i)).b ∧
  Fixes (fixed i).2.2.1 (nibbles (encode i)).c ∧ Fixes (fixed i).2.2.2 (nibbles (encode i)).d

/-- It is enough that the encoder's nibbles are the fixed ones. -/
theorem of_encodeNibbles {i : Instr}
    (h : Fixes (fixed i).1 (encodeNibbles i).a ∧ Fixes (fixed i).2.1 (encodeNibbles i).b ∧
      Fixes (fixed i).2.2.1 (encodeNibbles i).c ∧ Fixes (fixed i).2.2.2 (encodeNibbles i).d) : Statement i := by
  rw [Statement, encode, nibbles_packNibbles]
  exact h

theorem free (n : Nibble) : Fixes none n := fun _ h => nomatch h

theorem same (n : Nibble) : Fixes (some n) n := fun _ h => Option.some.inj h

theorem cls : Statement .cls := of_encodeNibbles ⟨same _, same _, same _, same _⟩
theorem ret : Statement .ret := of_encodeNibbles ⟨same _, same _, same _, same _⟩
theorem sys (nnn : Addr12) : Statement (.sys nnn) := of_encodeNibbles ⟨same _, free _, free _, free _⟩
theorem jp (nnn : Addr12) : Statement (.jp nnn) := of_encodeNibbles ⟨same _, free _, free _, free _⟩
theorem call (nnn : Addr12) : Statement (.call nnn) := of_encodeNibbles ⟨same _, free _, free _, free _⟩
theorem seImm (x : Reg) (nn : Byte) : Statement (.seImm x nn) := of_encodeNibbles ⟨same _, free _, free _, free _⟩
theorem sneImm (x : Reg) (nn : Byte) : Statement (.sneImm x nn) := of_encodeNibbles ⟨same _, free _, free _, free _⟩
theorem seReg (x y : Reg) : Statement (.seReg x y) := of_encodeNibbles ⟨same _, free _, free _, same _⟩
theorem ldImm (x : Reg) (nn : Byte) : Statement (.ldImm x nn) := of_encodeNibbles ⟨same _, free _, free _, free _⟩
theorem addImm (x : Reg) (nn : Byte) : Statement (.addImm x nn) := of_encodeNibbles ⟨same _, free _, free _, free _⟩
theorem ldReg (x y : Reg) : Statement (.ldReg x y) := of_encodeNibbles ⟨same _, free _, free _, same _⟩
theorem orReg (x y : Reg) : Statement (.orReg x y) := of_encodeNibbles ⟨same _, free _, free _, same _⟩
theorem andReg (x y : Reg) : Statement (.andReg x y) := of_encodeNibbles ⟨same _, free _, free _, same _⟩
theorem xorReg (x y : Reg) : Statement (.xorReg x y) := of_encodeNibbles ⟨same _, free _, free _, same _⟩
theorem addReg (x y : Reg) : Statement (.addReg x y) := of_encodeNibbles ⟨same _, free _, free _, same _⟩
theorem sub (x y : Reg) : Statement (.sub x y) := of_encodeNibbles ⟨same _, free _, free _, same _⟩
theorem shr (x y : Reg) : Statement (.shr x y) := of_encodeNibbles ⟨same _, free _, free _, same _⟩
theorem subn (x y : Reg) : Statement (.subn x y) := of_encodeNibbles ⟨same _, free _, free _, same _⟩
theorem shl (x y : Reg) : Statement (.shl x y) := of_encodeNibbles ⟨same _, free _, free _, same _⟩
theorem sneReg (x y : Reg) : Statement (.sneReg x y) := of_encodeNibbles ⟨same _, free _, free _, same _⟩
theorem ldI (nnn : Addr12) : Statement (.ldI nnn) := of_encodeNibbles ⟨same _, free _, free _, free _⟩
theorem jpV0 (nnn : Addr12) : Statement (.jpV0 nnn) := of_encodeNibbles ⟨same _, free _, free _, free _⟩
theorem rnd (x : Reg) (nn : Byte) : Statement (.rnd x nn) := of_encodeNibbles ⟨same _, free _, free _, free _⟩
theorem drw (x y : Reg) (n : Nibble) : Statement (.drw x y n) := of_encodeNibbles ⟨same _, free _, free _, free _⟩
theorem skp (x : Reg) : Statement (.skp x) := of_encodeNibbles ⟨same _, free _, same _, same _⟩
theorem sknp (x : Reg) : Statement (.sknp x) := of_encodeNibbles ⟨same _, free _, same _, same _⟩
theorem ldVxDt (x : Reg) : Statement (.ldVxDt x) := of_encodeNibbles ⟨same _, free _, same _, same _⟩
theorem ldVxK (x : Reg) : Statement (.ldVxK x) := of_encodeNibbles ⟨same _, free _, same _, same _⟩
theorem ldDtVx (x : Reg) : Statement (.ldDtVx x) := of_encodeNibbles ⟨same _, free _, same _, same _⟩
theorem ldStVx (x : Reg) : Statement (.ldStVx x) := of_encodeNibbles ⟨same _, free _, same _, same _⟩
theorem addI (x : Reg) : Statement (.addI x) := of_encodeNibbles ⟨same _, free _, same _, same _⟩
theorem ldF (x : Reg) : Statement (.ldF x) := of_encodeNibbles ⟨same _, free _, same _, same _⟩
theorem ldB (x : Reg) : Statement (.ldB x) := of_encodeNibbles ⟨same _, free _, same _, same _⟩
theorem ldMemRegs (x : Reg) : Statement (.ldMemRegs x) := of_encodeNibbles ⟨same _, free _, same _, same _⟩
theorem ldRegsMem (x : Reg) : Statement (.ldRegsMem x) := of_encodeNibbles ⟨same _, free _, same _, same _⟩

end Sys2Proof.Laws.FixedNibbles
end

