-- ==== Sys2Proof/Laws/Step.lean ====
section
/-! SUPPORT. What the step can do, said once. -/

namespace Sys2Proof.Machine

/-- The fetch fails exactly where a byte of the word lies past 0xFFF. -/
theorem fetchHalt_of_in {s : State} (h : s.pc.toNat + 1 ≤ 0xFFF) : fetchHalt s = none :=
  boundsHalt_of_in (.inr (by omega))

theorem fetchHalt_of_out {s : State} (h : s.pc.toNat + 1 > 0xFFF) :
    fetchHalt s = some (.memoryOutOfBounds (max s.pc.toNat 0x1000)) :=
  boundsHalt_of_out (by omega)

/-- Everything `Step()` can do (R121, R303). -/
theorem stepInstr_cases (s : State) :
    (∃ r, s.halted = some r ∧ stepInstr s = .next s) ∨
    (s.halted = none ∧ s.pc.toNat + 1 > 0xFFF ∧
      stepInstr s = .next { s with halted := some (.memoryOutOfBounds (max s.pc.toNat 0x1000)) }) ∨
    (s.halted = none ∧ s.pc.toNat + 1 ≤ 0xFFF ∧ ∃ i, decodeWord (fetchWord s) = .instr i ∧
      stepInstr s = exec i s.advancePc) ∨
    (s.halted = none ∧ s.pc.toNat + 1 ≤ 0xFFF ∧ ∃ w, decodeWord (fetchWord s) = .unsupported w ∧
      stepInstr s = .next { s.advancePc with halted := some (.unsupportedInstruction w) }) := by
  unfold stepInstr
  cases hh : s.halted with
  | some r => exact .inl ⟨r, rfl, rfl⟩
  | none =>
    by_cases hp : s.pc.toNat + 1 ≤ 0xFFF
    · rw [fetchHalt_of_in hp]
      cases hd : decodeWord (fetchWord s) with
      | instr i => exact .inr (.inr (.inl ⟨rfl, hp, i, rfl, rfl⟩))
      | unsupported w => exact .inr (.inr (.inr ⟨rfl, hp, w, rfl, rfl⟩))
    · rw [fetchHalt_of_out (by omega)]
      exact .inr (.inl ⟨rfl, by omega, rfl⟩)

/-- The step is the operation the host calls, on the state with the schedule moved on (R120). -/
theorem step_of_hostCalls {s : State} {op : HostOp} (h : s.HostCalls op) : step s = performHostOp op s.hostTurn := by
  unfold step
  rw [h]

/-- Everything an operation of the host's that answers a next state can be (R120). -/
theorem performHostOp_cases {op : HostOp} {s t : State} (h : performHostOp op s = .next t) :
    (op = .step ∧ stepInstr s = .next t) ∨
    (op = .tick ∧ t = tick s) ∨
    (∃ code, op = .keyDown code ∧ code < 16 ∧ t = { s with keys := s.keys ||| keyBit code }) ∨
    (∃ code, op = .keyUp code ∧ code < 16 ∧ t = { s with keys := s.keys &&& ~~~ keyBit code }) ∨
    (op = .readFramebuffer ∧ t = s) := by
  cases op with
  | step => exact .inl ⟨rfl, h⟩
  | tick => exact .inr (.inl ⟨rfl, (Host.Outcome.next.inj h).symm⟩)
  | keyDown code =>
    by_cases hc : code < 16
    · simp only [performHostOp, keyDown, if_pos hc] at h
      exact .inr (.inr (.inl ⟨code, rfl, hc, (Host.Outcome.next.inj h).symm⟩))
    · simp [performHostOp, keyDown, if_neg hc] at h
  | keyUp code =>
    by_cases hc : code < 16
    · simp only [performHostOp, keyUp, if_pos hc] at h
      exact .inr (.inr (.inr (.inl ⟨code, rfl, hc, (Host.Outcome.next.inj h).symm⟩)))
    · simp [performHostOp, keyUp, if_neg hc] at h
  | readFramebuffer => exact .inr (.inr (.inr (.inr ⟨rfl, (Host.Outcome.next.inj h).symm⟩)))

/-- Everything a step that answers a next state can be: the host's next operation on the state with the schedule moved
on (R120). -/
theorem step_cases {s t : State} (h : step s = .next t) :
    (s.HostCalls .step ∧ stepInstr s.hostTurn = .next t) ∨
    (s.HostCalls .tick ∧ t = tick s.hostTurn) ∨
    (∃ code, s.HostCalls (.keyDown code) ∧ code < 16 ∧
      t = { s.hostTurn with keys := s.keys ||| keyBit code }) ∨
    (∃ code, s.HostCalls (.keyUp code) ∧ code < 16 ∧
      t = { s.hostTurn with keys := s.keys &&& ~~~ keyBit code }) ∨
    (s.HostCalls .readFramebuffer ∧ t = s.hostTurn) :=
  performHostOp_cases h

/-- An operation of a free host is in the interface (R125). -/
theorem offered_hostChoiceOp (c : Config.HostChoice) : (hostChoiceOp c).Offered := by
  intro code h
  cases c with
  | keyDown k => simp only [hostChoiceOp, HostOp.keyDown.injEq, reduceCtorEq, or_false] at h; omega
  | keyUp k => simp only [hostChoiceOp, HostOp.keyUp.injEq, reduceCtorEq, false_or] at h; omega
  | _ => simp [hostChoiceOp] at h

/-- The fetched word as a number (R62). -/
theorem fetchWord_def (s : State) :
    fetchWord s = wordOfBytes (s.mem.read s.pc.toNat) (s.mem.read (s.pc.toNat + 1)) := rfl

end Sys2Proof.Machine
end

