-- ==== Sys2Proof/Tests/Slice0.lean ====
section
/-! SUPPORT. The model's own tests: the decoder on words written out from the opcode table, one or two Steps' results
per instruction from the vectors of spec/95_test_vectors.md, and a witness for the hypotheses of each statement. -/

namespace Sys2Proof.Tests

open Sys2Proof.Machine

/-! ### Well-formedness: the ill-formed terms are refused (41_control_flow.md R141) -/

theorem test_wf_refuses_sys_0E0 : (Instr.sys 0x0E0).wf = false := by decide
theorem test_wf_refuses_sys_0EE : (Instr.sys 0x0EE).wf = false := by decide
theorem test_wf_admits_sys_123 : (Instr.sys 0x123).wf = true := by decide

/-! ### Decoding: words written out bit by bit from the table's `encoding` strings -/

theorem test_decode_cls : decodeWord 0b0000000011100000#16 = .instr .cls := by decide
theorem test_decode_ret : decodeWord 0b0000000011101110#16 = .instr .ret := by decide
theorem test_decode_sys : decodeWord 0b0000000100100011#16 = .instr (.sys 0x123) := by decide
theorem test_decode_jp : decodeWord 0b0001101010111100#16 = .instr (.jp 0xABC) := by decide
theorem test_decode_call : decodeWord 0b0010001100000000#16 = .instr (.call 0x300) := by decide
theorem test_decode_seImm : decodeWord 0b0011001101000010#16 = .instr (.seImm 3 0x42) := by decide
theorem test_decode_sneImm : decodeWord 0b0100001101000010#16 = .instr (.sneImm 3 0x42) := by decide
theorem test_decode_seReg : decodeWord 0b0101000100100000#16 = .instr (.seReg 1 2) := by decide
theorem test_decode_ldImm : decodeWord 0b0110101000101111#16 = .instr (.ldImm 10 0x2F) := by decide
theorem test_decode_addImm : decodeWord 0b0111001011111111#16 = .instr (.addImm 2 0xFF) := by decide
theorem test_decode_ldReg : decodeWord 0b1000000000010000#16 = .instr (.ldReg 0 1) := by decide
theorem test_decode_orReg : decodeWord 0b1000111100010001#16 = .instr (.orReg 15 1) := by decide
theorem test_decode_andReg : decodeWord 0b1000000011110010#16 = .instr (.andReg 0 15) := by decide
theorem test_decode_xorReg : decodeWord 0b1000000100100011#16 = .instr (.xorReg 1 2) := by decide
theorem test_decode_addReg : decodeWord 0b1000000100100100#16 = .instr (.addReg 1 2) := by decide
theorem test_decode_sub : decodeWord 0b1000000100100101#16 = .instr (.sub 1 2) := by decide
theorem test_decode_shr : decodeWord 0b1000000100100110#16 = .instr (.shr 1 2) := by decide
theorem test_decode_subn : decodeWord 0b1000000100100111#16 = .instr (.subn 1 2) := by decide
theorem test_decode_shl : decodeWord 0b1000000100101110#16 = .instr (.shl 1 2) := by decide
theorem test_decode_sneReg : decodeWord 0b1001000100100000#16 = .instr (.sneReg 1 2) := by decide
theorem test_decode_ldI : decodeWord 0b1010001011110000#16 = .instr (.ldI 0x2F0) := by decide
theorem test_decode_jpV0 : decodeWord 0b1011001100000000#16 = .instr (.jpV0 0x300) := by decide
theorem test_decode_rnd : decodeWord 0b1100001100001111#16 = .instr (.rnd 3 0x0F) := by decide
theorem test_decode_drw : decodeWord 0b1101000100100101#16 = .instr (.drw 1 2 5) := by decide
theorem test_decode_skp : decodeWord 0b1110001010011110#16 = .instr (.skp 2) := by decide
theorem test_decode_sknp : decodeWord 0b1110001010100001#16 = .instr (.sknp 2) := by decide
theorem test_decode_ldVxDt : decodeWord 0b1111010000000111#16 = .instr (.ldVxDt 4) := by decide
theorem test_decode_ldVxK : decodeWord 0b1111001100001010#16 = .instr (.ldVxK 3) := by decide
theorem test_decode_ldDtVx : decodeWord 0b1111010000010101#16 = .instr (.ldDtVx 4) := by decide
theorem test_decode_ldStVx : decodeWord 0b1111010000011000#16 = .instr (.ldStVx 4) := by decide
theorem test_decode_addI : decodeWord 0b1111000100011110#16 = .instr (.addI 1) := by decide
theorem test_decode_ldF : decodeWord 0b1111101000101001#16 = .instr (.ldF 10) := by decide
theorem test_decode_ldB : decodeWord 0b1111000000110011#16 = .instr (.ldB 0) := by decide
theorem test_decode_ldMemRegs : decodeWord 0b1111001001010101#16 = .instr (.ldMemRegs 2) := by decide
theorem test_decode_ldRegsMem : decodeWord 0b1111001001100101#16 = .instr (.ldRegsMem 2) := by decide

/-! Illegal words (vectors FE5 to FE8) and the bytes of a word in memory order (W13). -/

theorem test_decode_illegal_5121 : decodeWord 0x5121#16 = .unsupported 0x5121 := by decide
theorem test_decode_illegal_E19F : decodeWord 0xE19F#16 = .unsupported 0xE19F := by decide
theorem test_decode_illegal_8008 : decodeWord 0x8008#16 = .unsupported 0x8008 := by decide
theorem test_decode_illegal_F000 : decodeWord 0xF000#16 = .unsupported 0xF000 := by decide
theorem test_decode_bytes_big_endian : decodeBytes [0x12, 0x34] = .decoded (.instr (.jp 0x234)) [] := by decide
theorem test_decode_one_byte_truncated : decodeBytes [0x12] = .truncated := by decide
theorem test_table_word : decodeTableWord 16 0xD125 = some (.drw 1 2 5) := by decide

/-! ### One Step on a small state -/

/-- The launch state with some registers set. -/
def withV (rs : List (Reg × Byte)) (s : State := State.reset) : State := rs.foldl (fun s p => s.setV p.1 p.2) s

/-- The state after a Step of a word placed at pc; the launch state where it does not answer. -/
def after (w : Nat) (s : State := State.reset) : State :=
  match step (s.withFetchWord 16 w) with
  | .next t => t
  | _ => State.reset

theorem test_cls_leaves_vF : (after 0x00E0 (withV [(15, 0x33)])).getV 15 = 0x33 := by decide                  -- DS1
theorem test_ret : (after 0x00EE { State.reset with stack := [0x206] }).pc = 0x206 := by decide               -- CF2
theorem test_ret_underflow : (after 0x00EE).halted = some .stackUnderflow := by decide                        -- CF3
theorem test_sys_halts : (after 0x0123).halted = some (.unsupportedInstruction 0x0123) := by decide           -- CF1
theorem test_sys_pc : (after 0x0123).pc = 0x202 := by decide                                                  -- CF1
theorem test_jp : (after 0x1ABC).pc = 0xABC := by decide                                                      -- W3
theorem test_call_stack : (after 0x2300 { State.reset with pc := 0x204 }).stack = [0x206] := by decide        -- CF4
theorem test_call_overflow : (after 0x2300 { State.reset with stack := List.replicate 16 0x202 }).halted =
    some .stackOverflow := by decide                                                                          -- CF6
theorem test_seImm : (after 0x3342 (withV [(3, 0x42)])).pc = 0x204 := by decide                               -- CF7
theorem test_seImm_not : (after 0x3342 (withV [(3, 0x41)])).pc = 0x202 := by decide                           -- CF8
theorem test_sneImm : (after 0x4342 (withV [(3, 0x41)])).pc = 0x204 := by decide                              -- CF9
theorem test_seReg : (after 0x5120 (withV [(1, 7), (2, 7)])).pc = 0x204 := by decide                          -- CF10
theorem test_sneReg : (after 0x9120 (withV [(1, 7), (2, 8)])).pc = 0x204 := by decide                         -- CF12
theorem test_sneReg_same : (after 0x9110).pc = 0x202 := by decide                                             -- CF13
theorem test_jpV0 : (after 0xB300 (withV [(0, 0x10)])).pc = 0x310 := by decide                                -- CF14
theorem test_jpV0_not_masked : (after 0xBFFF (withV [(0, 0xFF)])).pc = 0x10FE := by decide                    -- CF15
theorem test_ldImm : (after 0x6A2F).getV 10 = 0x2F := by decide                                               -- AL1
theorem test_addImm_wraps : (after 0x7201 (withV [(2, 0xFF), (15, 0x55)])).getV 2 = 0x00 := by decide         -- AL2
theorem test_addImm_no_carry : (after 0x7201 (withV [(2, 0xFF), (15, 0x55)])).getV 15 = 0x55 := by decide     -- AL2
theorem test_ldReg : (after 0x8010 (withV [(1, 0x33)])).getV 0 = 0x33 := by decide                            -- AL4
theorem test_orReg : (after 0x8011 (withV [(0, 0xF0), (1, 0x0F)])).getV 0 = 0xFF := by decide                 -- AL5
theorem test_andReg : (after 0x8012 (withV [(0, 0xF3), (1, 0x3F)])).getV 0 = 0x33 := by decide                -- AL6
theorem test_xorReg : (after 0x8013 (withV [(0, 0xFF), (1, 0x0F)])).getV 0 = 0xF0 := by decide                -- AL7
theorem test_addReg_sum : (after 0x8014 (withV [(0, 0xC8), (1, 0x64)])).getV 0 = 0x2C := by decide            -- AL9
theorem test_addReg_into_vF : (after 0x8F04 (withV [(15, 0x10), (0, 0x05)])).getV 15 = 0 := by decide         -- AL13
theorem test_sub_borrow : (after 0x8015 (withV [(0, 0x00), (1, 0x01)])).getV 15 = 0 := by decide              -- AL17
theorem test_sub_equal_gt : (after 0x8015
    { withV [(0, 5), (1, 5)] with params := ⟨.x, .gt⟩ }).getV 15 = 0 := by decide                             -- AL16
theorem test_subn : (after 0x8017 (withV [(0, 0x0A), (1, 0x03)])).getV 0 = 0xF9 := by decide                  -- AL19
theorem test_subn_borrow : (after 0x8017
    { withV [(0, 0x0A), (1, 0x03)] with params := ⟨.x, .borrow⟩ }).getV 15 = 1 := by decide                   -- AL19
theorem test_shr_source_x : (after 0x8126 (withV [(1, 0x03), (2, 0x80)])).getV 1 = 0x01 := by decide          -- AL23
theorem test_shr_source_y : (after 0x8126
    { withV [(1, 0x03), (2, 0x80)] with params := ⟨.y, .ge⟩ }).getV 1 = 0x40 := by decide                     -- AL23
theorem test_shl : (after 0x850E (withV [(5, 0x81)])).getV 5 = 0x02 := by decide                              -- AL25
theorem test_shl_into_vF : (after 0x8F0E (withV [(15, 0x80)])).getV 15 = 1 := by decide                       -- AL27
theorem test_ldI : (after 0xA2F0).i = 0x02F0 := by decide                                                     -- IM1
theorem test_addI : (after 0xF11E { withV [(1, 2)] with i := 0x0FFF }).i = 0x1001 := by decide                -- IM2
theorem test_addI_wraps : (after 0xF11E { withV [(1, 2)] with i := 0xFFFF }).i = 0x0001 := by decide          -- IM3
theorem test_ldF : (after 0xFA29 (withV [(10, 0x0A)])).i = 0x0032 := by decide                                -- IM4
theorem test_ldF_not_masked : (after 0xFF29 (withV [(15, 0xFF)])).i = 0x04FB := by decide                     -- IM5
theorem test_ldB_tens : (after 0xF033 { withV [(0, 0x9D)] with i := 0x300 }).mem.read 0x301 = 5 := by decide  -- IM6
theorem test_ldB_out : (after 0xF033 { State.reset with i := 0xFFE }).halted =
    some (.memoryOutOfBounds 0x1000) := by decide                                                             -- IM10
theorem test_ldMemRegs : (after 0xF255
    { withV [(0, 1), (1, 2), (2, 3)] with i := 0x300 }).mem.read 0x302 = 3 := by decide                       -- IM11
theorem test_ldMemRegs_i : (after 0xF255 { State.reset with i := 0x300 }).i = 0x303 := by decide              -- IM11
theorem test_ldRegsMem : (after 0xF065 { State.reset with i := 0xFFF, mem := [(0xFFF, 0x12)] }).getV 0 = 0x12 := by
  decide                                                                                                      -- IM17
theorem test_ldRegsMem_out : (after 0xF065 { State.reset with i := 0x1000 }).halted =
    some (.memoryOutOfBounds 0x1000) := by decide                                                             -- IM16
theorem test_drw_wraps : fbGet (after 0xD011
    { withV [(0, 63)] with i := 0x050, mem := [(0x050, 0xC0)] }).fb 0 0 = true := by decide                   -- DS2
theorem test_drw_collides : (after 0xD011
    { State.reset with i := 0x300, mem := [(0x300, 0x01)], fb := fbSet fbClear 7 0 true }).getV 15 = 1 := by
  decide                                                                                                      -- DS9
theorem test_skp_low_bits : (after 0xE29E { withV [(2, 0x15)] with keys := 0x0020 }).pc = 0x204 := by decide  -- KY3
theorem test_sknp : (after 0xE2A1 { withV [(2, 5)] with keys := 0x0020 }).pc = 0x202 := by decide             -- KY5
theorem test_ldVxK_waits : (after 0xF30A { State.reset with pc := 0x20A }).pc = 0x20A := by decide            -- KY6
theorem test_ldVxK_low_byte : (after 0xF30A { State.reset with keys := 0x8001 }).getV 3 = 0x01 := by decide   -- KY9
theorem test_ldVxDt : (after 0xF407 { State.reset with dt := 0x3C }).getV 4 = 0x3C := by decide               -- TM1
theorem test_ldDtVx : (after 0xF415 (withV [(4, 0x3C)])).dt = 0x3C := by decide                               -- TM2
theorem test_ldStVx : (after 0xF418 (withV [(4, 0x05)])).st = 0x05 := by decide                               -- TM3

/-- AL29: a mask of zero gives zero, whatever byte the random source gives. -/
theorem test_rnd_zero_mask (s : State) : ∃ t, exec (.rnd 3 0x00) s = .next t ∧ t.getV 3 = 0 :=
  ⟨_, rfl, by simp⟩

/-- FE2: the last byte of memory holds no whole word. -/
theorem test_fetch_halt : (after 0x00E0 { State.reset with pc := 0xFFF }).halted = some (.memoryOutOfBounds 0x1000) := by
  decide

/-- FE8: an illegal word. -/
theorem test_illegal_halt : (after 0xF000).halted = some (.unsupportedInstruction 0xF000) := by decide

/-- TM5. -/
theorem test_tick_clamps : (tick { State.reset with st := 0xFF }).dt = 0 := by decide

/-- R340: a launch with the default parameters and an empty ROM, and Steps after it, leaves the reset state. -/
theorem test_launch_default : launch defaultLaunch .steps (some []) = .ok State.reset := by rfl

/-! ### Witnesses: states and operands that meet the hypotheses of the statements -/

/-- An outcome that is a next state. -/
def answers : Outcome → Bool
  | .next _ => true
  | _ => false

theorem next_of_answers {o : Outcome} (h : answers o = true) : ∃ t, o = .next t := by
  cases o with
  | next t => exact ⟨t, rfl⟩
  | fault r => exact nomatch h
  | refused r => exact nomatch h

/-- A state about to fetch `w` at 0xFFE, the last place a word fits. -/
def atTop (w : Nat) : State := ({ State.reset with pc := 0xFFE } : State).withFetchWord 16 w

theorem witness_hostCalls_step_both_ways :
    State.reset.HostCalls .step ∧ ({ State.reset with schedule := .first .step (.first .tick .steps) } : State).HostCalls .step :=
  ⟨rfl, rfl⟩

theorem witness_DecodeOfEncodeIsTheInstruction :
    (Instr.sys 0xFFF).wf = true ∧ (Instr.sys 0x000).wf = true ∧ (Instr.drw 15 15 15).wf = true := by decide

theorem witness_DecodedWordIsTheEncoding :
    decodeWord 0x00E0 = .instr .cls ∧ decodeWord 0xFF65 = .instr (.ldRegsMem 15) := by decide

theorem witness_UnsupportedWordsAreThoseListed :
    decodeWord 0x5001 = .unsupported 0x5001 ∧ decodeWord 0x9FFF = .unsupported 0x9FFF ∧
    decodeWord 0x8FFF = .unsupported 0x8FFF ∧ decodeWord 0xE000 = .unsupported 0xE000 ∧
    decodeWord 0xFFFF = .unsupported 0xFFFF := by decide

theorem witness_EveryFormHasItsWord :
    (0x0DF : Addr12) ≠ 0x0E0 ∧ (0x0DF : Addr12) ≠ 0x0EE ∧ (0x000 : Addr12) ≠ 0x0E0 ∧ (0x000 : Addr12) ≠ 0x0EE := by
  decide

theorem witness_StepRunsTheInstructionAtPc :
    (atTop 0x00E0).HostCalls .step ∧ (atTop 0x00E0).halted = none ∧ (atTop 0x00E0).pc.toNat + 1 ≤ 0xFFF ∧
    decodeWord (BitVec.ofNat 16 (256 * ((atTop 0x00E0).mem.read (atTop 0x00E0).pc.toNat).toNat +
      ((atTop 0x00E0).mem.read ((atTop 0x00E0).pc.toNat + 1)).toNat)) = .instr .cls :=
  ⟨rfl, by decide, by decide, by decide⟩

theorem witness_FetchPastMemoryHalts :
    ({ State.reset with pc := 0xFFF } : State).HostCalls .step ∧ State.reset.halted = none ∧
    ({ State.reset with pc := 0xFFF } : State).pc.toNat + 1 > 0xFFF :=
  ⟨rfl, by decide, by decide⟩

theorem witness_IllegalWordHaltsWithTheRawWord :
    (atTop 0x5001).HostCalls .step ∧ (atTop 0x5001).halted = none ∧ (atTop 0x5001).pc.toNat + 1 ≤ 0xFFF ∧
    (0x5001 : Word).toNat = 256 * ((atTop 0x5001).mem.read (atTop 0x5001).pc.toNat).toNat +
      ((atTop 0x5001).mem.read ((atTop 0x5001).pc.toNat + 1)).toNat ∧
    ∀ i : Instr, decodeWord 0x5001 ≠ .instr i :=
  ⟨rfl, by decide, by decide, by decide, fun i h => by
    have e : decodeWord 0x5001 = .unsupported 0x5001 := by decide
    exact Decoded.noConfusion (e.symm.trans h)⟩

/-- A halted state. -/
def halted : State := { State.reset with halted := some .stackUnderflow, schedule := .first .tick .steps }

theorem witness_StepOnHaltedMachineReportsTheHalt :
    ({ halted with schedule := .steps } : State).HostCalls .step ∧ halted.halted = some .stackUnderflow := ⟨rfl, rfl⟩

theorem witness_HaltedMachineKeepsItsState :
    halted.halted = some .stackUnderflow ∧ Reaches halted (tick halted.hostTurn) := ⟨rfl, .more .here rfl⟩

theorem witness_TickCountsBothTimersDown : halted.HostCalls .tick := rfl

/-- The launch state with one call scheduled before the Steps. -/
def calling (op : HostOp) : State := { State.reset with schedule := .first op .steps }

theorem witness_KeyEventsSetAndClearOneBit :
    ((calling (.keyDown 0)).HostCalls (.keyDown 0) ∧ 0 < 16) ∧ ((calling (.keyDown 15)).HostCalls (.keyDown 15) ∧ 15 < 16) ∧
    ((calling (.keyUp 15)).HostCalls (.keyUp 15) ∧ 15 < 16) ∧
    (((calling (.keyDown 16)).HostCalls (.keyDown 16) ∨ (calling (.keyDown 16)).HostCalls (.keyUp 16)) ∧ 16 ≥ 16) :=
  ⟨⟨rfl, by decide⟩, ⟨rfl, by decide⟩, ⟨rfl, by decide⟩, .inl rfl, by decide⟩

theorem witness_ReadFramebufferChangesNothing : (calling .readFramebuffer).HostCalls .readFramebuffer := rfl

theorem witness_EveryStepAnswers :
    (nextHostOp State.reset.schedule).Offered ∧ (nextHostOp halted.schedule).Offered ∧
    (nextHostOp (calling (.keyUp 15)).schedule).Offered := by
  refine ⟨nofun, nofun, fun code h => ?_⟩
  simp only [calling, nextHostOp, reduceCtorEq, HostOp.keyUp.injEq, false_or] at h
  omega

/-- A Tick after a Step on a halted machine still acts (R305). -/
theorem test_tick_after_step_on_halted :
    (match step { halted with dt := 5, schedule := .first .step (.first .tick .steps) } with
      | .next t => (match step t with | .next u => u.dt | _ => 0)
      | _ => 0) = 4 := by decide

theorem witness_EveryInterleavingIsARun :
    ({ halted with schedule := .first .step (.first .tick (.free 0)) } : State).schedule =
      [HostOp.step, .tick].foldr .first (.free 0) ∧
    (∀ op ∈ [HostOp.step, .tick], op.Offered) ∧ ({ halted with schedule := .free 0 } : State).schedule = .free 0 := by
  refine ⟨rfl, fun op h => ?_, rfl⟩
  simp only [List.mem_cons, List.not_mem_nil, or_false] at h
  obtain rfl | rfl := h <;> nofun

theorem witness_HaltsArePrecise :
    (∃ t, step (atTop 0x00EE) = .next t ∧ (atTop 0x00EE).halted = none ∧ t.halted = some .stackUnderflow) ∧
    (∃ t, step { State.reset with pc := 0xFFF } = .next t ∧ State.reset.halted = none ∧
      t.halted = some (.memoryOutOfBounds 0x1000)) := by
  obtain ⟨t, ht⟩ := next_of_answers (o := step (atTop 0x00EE)) (by decide)
  refine ⟨⟨t, ht, by decide, ?_⟩, ⟨_, rfl, rfl, by decide⟩⟩
  have h : (match step (atTop 0x00EE) with | .next t => t.halted | _ => none) = some .stackUnderflow := by decide
  rwa [ht] at h

theorem witness_OnlySevenInstructionsHalt :
    (∃ t, exec (.sys 0x123) State.reset = .next t ∧ t.halted = some (.unsupportedInstruction 0x123)) ∧
    (∃ t, exec .ret State.reset = .next t ∧ t.halted = some .stackUnderflow) ∧
    (∃ t, exec (.drw 0 0 1) { State.reset with i := 0x1000 } = .next t ∧ t.halted = some (.memoryOutOfBounds 0x1000)) :=
  ⟨⟨_, rfl, by decide⟩, ⟨_, rfl, by decide⟩, ⟨_, rfl, by decide⟩⟩

theorem witness_EndedStateIsLeftUnchanged :
    (atTop 0x1FFE).Ended ∧ (atTop 0x1FFE).HostCalls .step ∧ Reaches (atTop 0x1FFE) (atTop 0x1FFE) :=
  ⟨by unfold State.Ended; decide, rfl, .here⟩

/-- A state at the edge of the invariant: a full stack, the greatest return address, the greatest pc. -/
def atTheEdge : State := { State.reset with stack := List.replicate 16 0x1000, pc := 0x10FE, mem := [(0xFFF, 1)] }

theorem witness_EveryStepKeepsTheMachineInvariant : atTheEdge.Inv ∧ ∃ t, step atTheEdge = .next t := by
  refine ⟨?_, next_of_answers (by decide)⟩
  refine ⟨by decide, by decide, fun a h => ?_, by decide⟩
  rw [List.eq_of_mem_replicate h]
  decide

theorem witness_EveryStepKeepsTheMachineInvariant_call :
    ({ atTop 0x2FFF with stack := List.replicate 15 0x1000 } : State).Inv ∧
    ∃ t, step { atTop 0x2FFF with stack := List.replicate 15 0x1000 } = .next t := by
  refine ⟨⟨by decide, by decide, fun a h => ?_, by decide⟩, next_of_answers (by decide)⟩
  rw [List.eq_of_mem_replicate h]
  decide

theorem witness_LaunchPlacesGlyphsAndRom :
    (List.replicate 3585 (0 : Byte)).length > 3584 ∧ (List.replicate 3584 (0 : Byte)).length ≤ 3584 ∧
    ([] : List Byte).length ≤ 3584 := by
  rw [List.length_replicate, List.length_replicate]
  decide

theorem witness_EachSpecialStateHasItsWriters :
    (∃ t, exec (.ldI 0x2F0) State.reset = .next t ∧ t.i ≠ State.reset.i) ∧
    (∃ t, exec (.call 0x300) State.reset = .next t ∧ t.stack ≠ State.reset.stack) ∧
    (∃ t, exec (.ldDtVx 0) (withV [(0, 1)]) = .next t ∧ t.dt ≠ (withV [(0, 1)]).dt) ∧
    (∃ t, exec (.ldStVx 0) (withV [(0, 1)]) = .next t ∧ t.st ≠ (withV [(0, 1)]).st) ∧
    (∃ t, exec .cls { State.reset with fb := fbSet fbClear 0 0 true } = .next t ∧ t.fb ≠ fbSet fbClear 0 0 true) ∧
    (∃ t, exec (.ldB 0) { State.reset with i := 0 } = .next t ∧ t.mem ≠ State.reset.mem) :=
  ⟨⟨_, rfl, by decide⟩, ⟨_, rfl, by decide⟩, ⟨_, rfl, by decide⟩, ⟨_, rfl, by decide⟩, ⟨_, rfl, by decide⟩,
   ⟨_, rfl, by decide⟩⟩

theorem witness_VFHasOnlyItsWriters :
    (∃ t, exec (.addReg 0 0) (withV [(0, 0x80)]) = .next t ∧ t.getV Reg.vF ≠ (withV [(0, 0x80)]).getV Reg.vF) ∧
    (∃ t, exec (.ldImm 15 1) State.reset = .next t ∧ t.getV Reg.vF ≠ State.reset.getV Reg.vF) :=
  ⟨⟨_, rfl, by decide⟩, ⟨_, rfl, by decide⟩⟩

theorem witness_SoundTimerInfluencesNothingElse : ∃ t, step (State.reset.withFetchWord 16 0xF018) = .next t :=
  next_of_answers (by decide)

theorem witness_FramebufferIsReadByDrawAlone :
    (∀ x y n, Instr.skp 0 ≠ .drw x y n) ∧ ∃ t, exec (.skp 0) State.reset = .next t :=
  ⟨nofun, _, rfl⟩

theorem witness_RetPopsThePc :
    ({ State.reset with stack := [0x1000] } : State).stack = 0x1000 :: [] ∧ State.reset.stack = [] := by decide

theorem witness_CallPushesTheReturnAddress :
    (List.replicate 15 (0x202 : Word)).length ≤ 15 ∧ (List.replicate 16 (0x202 : Word)).length ≥ 16 := by decide

/-- CALL 0x300 at 0x204 with RET at 0x300 (W4). -/
def callRet : State :=
  { State.reset with pc := 0x204, mem := storeWord (storeWord [] 0x204 0x2300) 0x300 0x00EE }

theorem witness_CallThenReturnResumes :
    callRet.schedule = .steps ∧ callRet.halted = none ∧ callRet.pc.toNat + 1 ≤ 0xFFF ∧ callRet.stack.length ≤ 15 ∧
    fetchWord callRet = BitVec.ofNat 16 (0x2000 + (0x300 : Addr12).toNat) ∧ (0x300 : Addr12).toNat + 1 ≤ 0xFFF ∧
    callRet.mem.read (0x300 : Addr12).toNat = 0x00 ∧ callRet.mem.read ((0x300 : Addr12).toNat + 1) = 0xEE := by decide

theorem witness_flag_operations_beside_vF : (14 : Reg) ≠ Reg.vF ∧ (0 : Reg) ≠ Reg.vF := by decide

theorem witness_sub_flag_values :
    ({ State.reset with params := ⟨.x, .ge⟩ } : State).params.subFlag = .ge ∧
    ({ State.reset with params := ⟨.x, .gt⟩ } : State).params.subFlag = .gt ∧
    ({ State.reset with params := ⟨.y, .borrow⟩ } : State).params.subFlag = .borrow := by decide

theorem witness_LdBStoresTheDigits :
    State.reset.mem.wf = true ∧ ({ State.reset with i := 0xFFD } : State).i.toNat + 2 ≤ 0xFFF ∧
    ({ State.reset with i := 0xFFE } : State).i.toNat + 2 > 0xFFF := by decide

theorem witness_LdMemRegsStoresTheBlock :
    State.reset.mem.wf = true ∧ ({ State.reset with i := 0xFF0 } : State).i.toNat + (15 : Reg).val ≤ 0xFFF ∧
    ({ State.reset with i := 0xFF1 } : State).i.toNat + (15 : Reg).val > 0xFFF ∧ (15 : Reg) ≤ 15 := by decide

theorem witness_LdRegsMemLoadsTheBlock :
    ({ State.reset with i := 0xFFF } : State).i.toNat + (0 : Reg).val ≤ 0xFFF ∧
    ({ State.reset with i := 0x1000 } : State).i.toNat + (0 : Reg).val > 0xFFF ∧ (0 : Reg) ≤ 0 := by decide

/-- Registers to store at 0x300 (W7). -/
def block : State := { withV [(0, 0x11), (1, 0x22), (2, 0x33)] with i := 0x300 }

theorem witness_StoreThenLoadGivesTheRegistersBack :
    ∃ t u : State, block.mem.wf = true ∧ block.i.toNat + (2 : Reg).val ≤ 0xFFF ∧ exec (.ldMemRegs 2) block = .next t ∧
      u.mem = t.mem ∧ u.i = block.i ∧ u.getV 0 = 0 := by
  obtain ⟨t, ht⟩ := next_of_answers (o := exec (.ldMemRegs 2) block) (by decide)
  exact ⟨t, { State.reset with mem := t.mem, i := 0x300 }, by decide, by decide, ht, rfl, rfl, rfl⟩

/-- LD [I], V15 over the last sixteen bytes of memory, of which pc points at the last two. -/
def storeOverPc : State := { State.reset with i := 0xFF0, pc := 0xFFE }

theorem witness_FetchSeesTheStoredWord :
    storeOverPc.mem.wf = true ∧ storeOverPc.i.toNat + (15 : Reg).val ≤ 0xFFF ∧
    storeOverPc.pc.toNat = storeOverPc.i.toNat + (14 : Reg).val ∧ (15 : Reg).val = (14 : Reg).val + 1 ∧
    (15 : Reg) ≤ 15 ∧ ∃ t, exec (.ldMemRegs 15) storeOverPc = .next t :=
  ⟨by decide, by decide, by decide, by decide, by decide, next_of_answers (by decide)⟩

/-- A sprite of one row 0x80 at 0x300, drawn at the origin. -/
def sprite (fb : Framebuffer) : State := { State.reset with i := 0x300, mem := [(0x300, 0x80)], fb := fb }

theorem sprite_row (fb : Framebuffer) :
    (sprite fb).mem.read (effAddr (sprite fb) 0) = (sprite fbClear).mem.read (effAddr (sprite fbClear) 0) := rfl

theorem sprite_covers_origin (fb : Framebuffer) : SpriteCovers (sprite fb) 0 0 1 0 0 :=
  ⟨0, 0, ⟨by decide, by decide, by rw [sprite_row]; decide⟩, rfl, rfl⟩

theorem sprite_leaves_next_column (fb : Framebuffer) : ¬ SpriteCovers (sprite fb) 0 0 1 1 0 := by
  rintro ⟨r, col, ⟨hr, hc, hb⟩, hx, hy⟩
  have hr0 : r = 0 := Nat.lt_one_iff.mp hr
  have hcol : (0 + col) % 64 = 1 := hx
  have h1 : col = 1 := by omega
  subst hr0 h1
  rw [sprite_row] at hb
  exact absurd hb (by decide)

theorem witness_DrwTogglesTheCoveredCells :
    ((0 : Nibble).val = 0 ∨ ({ State.reset with i := 0xFFFF } : State).i.toNat + (0 : Nibble).val - 1 ≤ 0xFFF) ∧
    ((4 : Nibble).val = 0 ∨ ({ State.reset with i := 0xFFC } : State).i.toNat + (4 : Nibble).val - 1 ≤ 0xFFF) ∧
    ((5 : Nibble).val ≠ 0 ∧ ({ State.reset with i := 0xFFC } : State).i.toNat + (5 : Nibble).val - 1 > 0xFFF) ∧
    SpriteCovers (sprite fbClear) 0 0 1 0 0 ∧ ¬ SpriteCovers (sprite fbClear) 0 0 1 1 0 ∧
    (∃ cx cy, SpriteCovers (sprite (fbSet fbClear 0 0 true)) 0 0 1 cx cy ∧
      fbGet (sprite (fbSet fbClear 0 0 true)).fb cx cy = true) ∧
    (¬ ∃ cx cy, SpriteCovers (sprite fbClear) 0 0 1 cx cy ∧ fbGet (sprite fbClear).fb cx cy = true) :=
  ⟨by decide, by decide, by decide, sprite_covers_origin _, sprite_leaves_next_column _,
   ⟨0, 0, sprite_covers_origin _, by decide⟩, fun ⟨x, y, _, h⟩ => by
    have hf : fbGet (sprite fbClear).fb x y = false := by simp [sprite, fbGet, fbClear]
    exact Bool.noConfusion (hf.symm.trans h)⟩

theorem witness_DrawingTwiceRestoresTheFramebuffer :
    ∃ t u : State, ((1 : Nibble).val = 0 ∨ (sprite fbClear).i.toNat + (1 : Nibble).val - 1 ≤ 0xFFF) ∧
      exec (.drw 0 0 1) (sprite fbClear) = .next t ∧ u.fb = t.fb ∧ u.mem = (sprite fbClear).mem ∧
      u.i = (sprite fbClear).i ∧ u.getV 0 = (sprite fbClear).getV 0 := by
  obtain ⟨t, ht⟩ := next_of_answers (o := exec (.drw 0 0 1) (sprite fbClear)) (by decide)
  exact ⟨t, { sprite fbClear with fb := t.fb }, by decide, ht, rfl, rfl, rfl, rfl⟩

/-- The premises of the clause of R244 that fails: the cell under the sprite is lit before the first draw (log 23). -/
theorem witness_SecondDrawAlwaysCollides :
    ∃ t u w : State, ((1 : Nibble).val = 0 ∨ (sprite (fbSet fbClear 0 0 true)).i.toNat + (1 : Nibble).val - 1 ≤ 0xFFF) ∧
      (∃ r col, SpriteHasBit (sprite (fbSet fbClear 0 0 true)) 1 r col) ∧
      exec (.drw 0 0 1) (sprite (fbSet fbClear 0 0 true)) = .next t ∧ u = { sprite fbClear with fb := t.fb } ∧
      exec (.drw 0 0 1) u = .next w := by
  obtain ⟨t, ht⟩ := next_of_answers (o := exec (.drw 0 0 1) (sprite (fbSet fbClear 0 0 true))) (by decide)
  obtain ⟨w, hw⟩ := next_of_answers (o := exec (.drw 0 0 1) { sprite fbClear with fb := t.fb }) rfl
  exact ⟨t, _, w, by decide, ⟨0, 0, by decide, by decide, by decide⟩, ht, rfl, hw⟩

theorem witness_KeyWaitRetriesOrLoadsTheMask :
    State.reset.keys = 0#16 ∧ ({ State.reset with keys := 0x0100 } : State).keys ≠ 0#16 := by decide

theorem witness_KeyWaitStepMakesNoProgress :
    (atTop 0xFF0A).HostCalls .step ∧ (atTop 0xFF0A).halted = none ∧ (atTop 0xFF0A).pc.toNat + 1 ≤ 0xFFF ∧
    (atTop 0xFF0A).keys = 0#16 ∧ fetchWord (atTop 0xFF0A) = BitVec.ofNat 16 (0xF00A + 0x100 * (15 : Reg).val) :=
  ⟨rfl, by decide, by decide, by decide, by decide⟩

end Sys2Proof.Tests
end

/-! PROOFS. The equations of the instructions that answer in more than one way. -/

namespace Sys2Proof.Machine

theorem execRet_of_cons {s : State} {a : Word} {rest : List Word} (h : s.stack = a :: rest) :
    execRet s = .next (({ s with stack := rest } : State).setPc a) := by
  simp [execRet, pop_of_cons h]

theorem execRet_of_nil {s : State} (h : s.stack = []) :
    execRet s = .next { s with halted := some .stackUnderflow } := by
  simp [execRet, pop_of_nil h, takeHalt]

/-- Everything RET can answer (R142). -/
theorem execRet_cases {s t : State} (h : execRet s = .next t) :
    (∃ a rest, s.stack = a :: rest ∧ t = ({ s with stack := rest } : State).setPc a) ∨
    (s.stack = [] ∧ t = { s with halted := some .stackUnderflow }) := by
  by_cases hs : s.stack = []
  · rw [execRet_of_nil hs] at h
    exact .inr ⟨hs, (Host.Outcome.next.inj h).symm⟩
  · obtain ⟨a, rest, hs⟩ := List.exists_cons_of_ne_nil hs
    rw [execRet_of_cons hs] at h
    exact .inl ⟨a, rest, hs, (Host.Outcome.next.inj h).symm⟩

theorem execCall_of_room {s : State} (nnn : Addr12) (h : s.stack.length < 16) :
    execCall nnn s = .next (({ s with stack := s.pc :: s.stack } : State).setPc (addrOperand nnn)) := by
  simp [execCall, push_of_room h]

theorem execCall_of_full {s : State} (nnn : Addr12) (h : 16 ≤ s.stack.length) :
    execCall nnn s = .next { s with halted := some .stackOverflow } := by
  simp [execCall, push_of_full h, takeHalt]

/-- Everything CALL can answer (R144). -/
theorem execCall_cases {nnn : Addr12} {s t : State} (h : execCall nnn s = .next t) :
    (s.stack.length < 16 ∧ t = ({ s with stack := s.pc :: s.stack } : State).setPc (addrOperand nnn)) ∨
    (16 ≤ s.stack.length ∧ t = { s with halted := some .stackOverflow }) := by
  rcases Nat.lt_or_ge s.stack.length 16 with hl | hl
  · rw [execCall_of_room nnn hl] at h
    exact .inl ⟨hl, (Host.Outcome.next.inj h).symm⟩
  · rw [execCall_of_full nnn hl] at h
    exact .inr ⟨hl, (Host.Outcome.next.inj h).symm⟩

theorem execLdVxK_of_none {s : State} (x : Reg) (h : s.keys = 0#16) :
    execLdVxK x s = .next (s.setPc (s.pc - 2#16)) := if_pos h

theorem execLdVxK_of_held {s : State} (x : Reg) (h : s.keys ≠ 0#16) :
    execLdVxK x s = .next (s.setV x (keyWaitValue s.keys)) := if_neg h

/-- Everything LD Vx, K can answer (R263). -/
theorem execLdVxK_cases {x : Reg} {s t : State} (h : execLdVxK x s = .next t) :
    (s.keys = 0#16 ∧ t = s.setPc (s.pc - 2#16)) ∨
    (s.keys ≠ 0#16 ∧ t = s.setV x (keyWaitValue s.keys)) := by
  by_cases hk : s.keys = 0#16
  · rw [execLdVxK_of_none x hk] at h
    exact .inl ⟨hk, (Host.Outcome.next.inj h).symm⟩
  · rw [execLdVxK_of_held x hk] at h
    exact .inr ⟨hk, (Host.Outcome.next.inj h).symm⟩

end Sys2Proof.Machine

/-! PROOFS. What each instruction may write (10_state.md R39): a table, and that `exec` keeps to it. -/

namespace Sys2Proof.Machine

/-- The parts of the state each form may write, pc and `halted` apart (10_state.md R39). -/
def writesOf (s : State) : Instr → Writes
  | .cls => { fb := true }
  | .ret | .call _ => { stack := true }
  | .sys _ | .jp _ | .jpV0 _ | .seImm _ _ | .sneImm _ _ | .seReg _ _ | .sneReg _ _ | .skp _ | .sknp _ => {}
  | .ldImm x _ | .addImm x _ | .ldReg x _ | .orReg x _ | .andReg x _ | .xorReg x _ | .ldVxDt x | .ldVxK x =>
    { regs := [x] }
  | .addReg x _ | .sub x _ | .shr x _ | .subn x _ | .shl x _ => { regs := [x, Reg.vF] }
  | .rnd x _ => { regs := [x], draws := true }
  | .drw _ _ _ => { regs := [Reg.vF], fb := true }
  | .ldI _ | .addI _ | .ldF _ => { index := true }
  | .ldDtVx _ => { dt := true }
  | .ldStVx _ => { st := true }
  | .ldB _ => { stores := addressRange (effAddr s 0) 3 }
  | .ldMemRegs x => { stores := addressRange (effAddr s 0) (blockCount x), index := true }
  | .ldRegsMem x => { regs := regsUpTo x, index := true }

theorem mem_regsUpTo {r x : Reg} : r ∈ regsUpTo x ↔ r ≤ x := by
  simp [regsUpTo]

theorem addressRange_ne_nil {base count : Nat} (h : count ≠ 0) : addressRange base count ≠ [] := by
  simp [addressRange, h]

/-- Between `s` and `t` nothing changed but what is listed, pc and `halted`. Unlike `Frame` it admits a halt, and where no
store is listed it keeps the memory list itself and not just what it reads as. -/
structure ChangesOnly (w : Writes) (s t : State) : Prop where
  regs : ∀ r : Reg, r ∉ w.regs → t.getV r = s.getV r
  mem : w.stores = [] → t.mem = s.mem
  index : w.index = false → t.i = s.i
  stack : w.stack = false → t.stack = s.stack
  dt : w.dt = false → t.dt = s.dt
  st : w.st = false → t.st = s.st
  fb : w.fb = false → t.fb = s.fb
  draws : w.draws = false → t.draws = s.draws
  keys : t.keys = s.keys
  params : t.params = s.params
  schedule : t.schedule = s.schedule

namespace ChangesOnly

variable {w : Writes} {s t u : State}

theorem refl (w : Writes) (s : State) : ChangesOnly w s s := by
  constructor <;> intros <;> rfl

theorem trans (h : ChangesOnly w s t) (h' : ChangesOnly w t u) : ChangesOnly w s u where
  regs r hr := (h'.regs r hr).trans (h.regs r hr)
  mem hw := (h'.mem hw).trans (h.mem hw)
  index hw := (h'.index hw).trans (h.index hw)
  stack hw := (h'.stack hw).trans (h.stack hw)
  dt hw := (h'.dt hw).trans (h.dt hw)
  st hw := (h'.st hw).trans (h.st hw)
  fb hw := (h'.fb hw).trans (h.fb hw)
  draws hw := (h'.draws hw).trans (h.draws hw)
  keys := h'.keys.trans h.keys
  params := h'.params.trans h.params
  schedule := h'.schedule.trans h.schedule

theorem halt (w : Writes) (s : State) (r : HaltReason) : ChangesOnly w s { s with halted := some r } :=
  { refl w s with }

theorem setPc (w : Writes) (s : State) (a : Word) : ChangesOnly w s (s.setPc a) :=
  { refl w s with }

theorem skipIf (w : Writes) (s : State) (c : Bool) : ChangesOnly w s (s.skipIf c) := by
  rw [skipIf_eq_setPc]
  exact setPc w s _

theorem setV (s : State) {x : Reg} (b : Byte) (hx : x ∈ w.regs) : ChangesOnly w s (s.setV x b) :=
  { refl w s with regs := fun r hr => getV_setV_of_ne s x r b fun e => hr (e ▸ hx) }

theorem setStack (s : State) (a : List Word) (hw : w.stack = true) : ChangesOnly w s { s with stack := a } :=
  { refl w s with stack := by simp [hw] }

theorem setI (s : State) (a : Word) (hw : w.index = true) : ChangesOnly w s (s.setI a) :=
  { refl w s with index := by simp [hw] }

theorem setDt (s : State) (b : Byte) (hw : w.dt = true) : ChangesOnly w s { s with dt := b } :=
  { refl w s with dt := by simp [hw] }

theorem setSt (s : State) (b : Byte) (hw : w.st = true) : ChangesOnly w s { s with st := b } :=
  { refl w s with st := by simp [hw] }

theorem setFb (s : State) (fb : Framebuffer) (hw : w.fb = true) : ChangesOnly w s { s with fb := fb } :=
  { refl w s with fb := by simp [hw] }

theorem drawRand (s : State) (hw : w.draws = true) : ChangesOnly w s (drawRand s).2 :=
  { refl w s with draws := by simp [hw] }

theorem setMem (s : State) (m : Memory) (hw : w.stores ≠ []) : ChangesOnly w s { s with mem := m } :=
  { refl w s with mem := by simp [hw] }

theorem blockLoaded (s : State) {x : Reg} (hw : w.regs = regsUpTo x) : ChangesOnly w s { s with v := blockLoaded s x } :=
  { refl w s with
    regs := fun r hr => by
      rw [hw, mem_regsUpTo] at hr
      exact (blockLoaded_getElem s x r).trans (if_neg hr) }

theorem writeResultThenFlag (s : State) {x : Reg} (b f : Byte) (hx : x ∈ w.regs) (hf : Reg.vF ∈ w.regs) :
    ChangesOnly w s (writeResultThenFlag x b f s) :=
  (setV s b hx).trans (setV _ f hf)

/-- A bounds-checked instruction changes what its writes change. -/
theorem ifInBounds {base count : Nat} {v : State} (hv : ChangesOnly w s v) (h : ifInBounds base count s v = .next t) :
    ChangesOnly w s t := by
  obtain ⟨_, rfl⟩ | ⟨_, rfl⟩ := ifInBounds_cases h
  · exact hv
  · exact halt w s _

end ChangesOnly

/-- Every form writes at most what the table lists for it (R39). -/
theorem exec_changesOnly {i : Instr} {s t : State} (h : exec i s = .next t) : ChangesOnly (writesOf s i) s t := by
  cases i with
  | cls => cases h; exact .setFb s _ rfl
  | ldDtVx => cases h; exact .setDt s _ rfl
  | ldStVx => cases h; exact .setSt s _ rfl
  | ldI | addI | ldF => cases h; exact .setI s _ rfl
  | ret =>
    obtain ⟨a, rest, _, rfl⟩ | ⟨_, rfl⟩ := execRet_cases h
    · exact (ChangesOnly.setStack s rest rfl).trans (.setPc _ _ a)
    · exact .halt _ s _
  | call nnn =>
    obtain ⟨_, rfl⟩ | ⟨_, rfl⟩ := execCall_cases h
    · exact (ChangesOnly.setStack s (s.pc :: s.stack) rfl).trans (.setPc _ _ _)
    · exact .halt _ s _
  | sys => cases h; exact .halt _ s _
  | jp | jpV0 => cases h; exact .setPc _ s _
  | seImm | sneImm | seReg | sneReg | skp | sknp => cases h; exact .skipIf _ s _
  | ldImm x | addImm x | ldReg x | orReg x | andReg x | xorReg x | ldVxDt x =>
    cases h; exact .setV s _ (List.mem_singleton_self x)
  | ldVxK x =>
    obtain ⟨_, rfl⟩ | ⟨_, rfl⟩ := execLdVxK_cases h
    · exact .setPc _ s _
    · exact .setV s _ (List.mem_singleton_self x)
  | addReg x | sub x | shr x | subn x | shl x =>
    cases h; exact .writeResultThenFlag s _ _ (by simp [writesOf]) (by simp [writesOf])
  | rnd x nn => cases h; exact (ChangesOnly.drawRand s rfl).trans (.setV _ _ (List.mem_singleton_self x))
  | drw => exact .ifInBounds ((ChangesOnly.setFb s _ rfl).trans (.setV _ _ (List.mem_singleton_self _))) h
  | ldB x => exact .ifInBounds (.setMem s _ (addressRange_ne_nil (by decide))) h
  | ldMemRegs x =>
    exact .ifInBounds ((ChangesOnly.setMem s _ (addressRange_ne_nil (Nat.succ_ne_zero x.val))).trans (.setI _ _ rfl)) h
  | ldRegsMem x => exact .ifInBounds ((ChangesOnly.blockLoaded s rfl).trans (.setI _ _ rfl)) h

/-! The table read backwards: the forms it lists for each part of the state. -/

section Table

variable {s : State} {i : Instr}

theorem writesOf_index (h : (writesOf s i).index = true) :
    (∃ nnn, i = .ldI nnn) ∨ (∃ x, i = .addI x ∨ i = .ldF x ∨ i = .ldMemRegs x ∨ i = .ldRegsMem x) := by
  cases i with
  | ldI | addI | ldF | ldMemRegs | ldRegsMem => simp
  | _ => contradiction

theorem writesOf_stack (h : (writesOf s i).stack = true) : i = .ret ∨ ∃ nnn, i = .call nnn := by
  cases i with
  | ret | call => simp
  | _ => contradiction

theorem writesOf_dt (h : (writesOf s i).dt = true) : ∃ x, i = .ldDtVx x := by
  cases i with
  | ldDtVx x => exact ⟨x, rfl⟩
  | _ => contradiction

theorem writesOf_st (h : (writesOf s i).st = true) : ∃ x, i = .ldStVx x := by
  cases i with
  | ldStVx x => exact ⟨x, rfl⟩
  | _ => contradiction

theorem writesOf_fb (h : (writesOf s i).fb = true) : i = .cls ∨ ∃ x y n, i = .drw x y n := by
  cases i with
  | cls | drw => simp
  | _ => contradiction

theorem writesOf_stores (h : (writesOf s i).stores ≠ []) : ∃ x, i = .ldB x ∨ i = .ldMemRegs x := by
  cases i with
  | ldB | ldMemRegs => simp
  | _ => contradiction

theorem writesOf_regs_vF (h : Reg.vF ∈ (writesOf s i).regs) :
    (∃ x y, i = .addReg x y ∨ i = .sub x y ∨ i = .shr x y ∨ i = .subn x y ∨ i = .shl x y) ∨
    (∃ x y n, i = .drw x y n) ∨
    (∃ nn, i = .ldImm Reg.vF nn ∨ i = .addImm Reg.vF nn ∨ i = .rnd Reg.vF nn) ∨
    (∃ y, i = .ldReg Reg.vF y ∨ i = .orReg Reg.vF y ∨ i = .andReg Reg.vF y ∨ i = .xorReg Reg.vF y) ∨
    i = .ldVxDt Reg.vF ∨ i = .ldVxK Reg.vF ∨ i = .ldRegsMem Reg.vF := by
  cases i with
  | addReg | sub | shr | subn | shl | drw => simp
  | ldImm | addImm | rnd | ldReg | orReg | andReg | xorReg | ldVxDt | ldVxK =>
    obtain rfl := List.mem_singleton.mp h
    simp
  | ldRegsMem x =>
    obtain rfl : x = Reg.vF := le_antisymm (Fin.le_last x) (mem_regsUpTo.mp h)
    simp
  | _ => exact absurd h (List.not_mem_nil)

end Table

/-- Settles O22: a part that changed is one the table lists for the form. -/
theorem eachSpecialStateHasItsWriters : Obligations.EachSpecialStateHasItsWriters := by
  intro i s t h
  have hc := exec_changesOnly h
  exact ⟨fun hne => writesOf_index (Bool.eq_true_of_not_eq_false (mt hc.index hne)),
    fun hne => writesOf_stack (Bool.eq_true_of_not_eq_false (mt hc.stack hne)),
    fun hne => writesOf_dt (Bool.eq_true_of_not_eq_false (mt hc.dt hne)),
    fun hne => writesOf_st (Bool.eq_true_of_not_eq_false (mt hc.st hne)),
    fun hne => writesOf_fb (Bool.eq_true_of_not_eq_false (mt hc.fb hne)),
    fun hne => writesOf_stores (mt hc.mem hne), hc.keys⟩

/-- Settles O23: VF is among the registers the table lists for the form. -/
theorem vfHasOnlyItsWriters : Obligations.VFHasOnlyItsWriters := by
  intro i s t h hne
  exact writesOf_regs_vF (Decidable.not_not.mp (mt ((exec_changesOnly h).regs Reg.vF) hne))

end Sys2Proof.Machine

/-! PROOFS. The machine's invariant: it holds at launch and every step keeps it (10_state.md R27, R28). -/

namespace Sys2Proof.Machine

/-- The memory stays in canonical form: both forms that store check their bounds first (R65). -/
theorem exec_mem_wf {i : Instr} {s t : State} (hs : s.mem.wf = true) (h : exec i s = .next t) : t.mem.wf = true := by
  by_cases hw : (writesOf s i).stores = []
  · rwa [(exec_changesOnly h).mem hw]
  · obtain ⟨x, rfl | rfl⟩ := writesOf_stores hw
    · obtain ⟨hb, rfl⟩ | ⟨_, rfl⟩ := ifInBounds_cases h
      · exact Memory.wf_writeBlock hs (hb.resolve_left (by decide))
      · exact hs
    · obtain ⟨hb, rfl⟩ | ⟨_, rfl⟩ := ifInBounds_cases h
      · refine Memory.wf_writeBlock hs ?_
        rw [blockBytes_length]
        exact hb.resolve_left (Nat.succ_ne_zero x.val)
      · exact hs

/-- The bounds of the call stack (R28): CALL pushes below depth 16, and what it pushes is pc. -/
theorem exec_stack_bounds {i : Instr} {s t : State} (hl : s.stack.length ≤ 16) (ha : ∀ a ∈ s.stack, a.toNat ≤ 0x1000)
    (hp : s.pc.toNat ≤ 0x1000) (h : exec i s = .next t) :
    t.stack.length ≤ 16 ∧ ∀ a ∈ t.stack, a.toNat ≤ 0x1000 := by
  by_cases hw : (writesOf s i).stack = false
  · rw [(exec_changesOnly h).stack hw]
    exact ⟨hl, ha⟩
  · obtain rfl | ⟨nnn, rfl⟩ := writesOf_stack (Bool.eq_true_of_not_eq_false hw)
    · obtain ⟨a, rest, hs, rfl⟩ | ⟨_, rfl⟩ := execRet_cases h
      · rw [hs] at hl ha
        exact ⟨Nat.le_of_succ_le hl, fun b hb => ha b (List.mem_cons_of_mem a hb)⟩
      · exact ⟨hl, ha⟩
    · obtain ⟨hroom, rfl⟩ | ⟨_, rfl⟩ := execCall_cases h
      · exact ⟨hroom, List.forall_mem_cons.mpr ⟨hp, ha⟩⟩
      · exact ⟨hl, ha⟩

/-- Everything an instruction can do to pc: leave it, skip, wait at itself, return, or jump to at most
0xFFF + 0xFF (41_control_flow.md, R351). -/
theorem exec_pc_cases {i : Instr} {s t : State} (h : exec i s = .next t) :
    t.pc = s.pc ∨ t.pc = s.pc + 2#16 ∨ t.pc = s.pc - 2#16 ∨ t.pc ∈ s.stack ∨ t.pc.toNat ≤ 0x10FE := by
  cases i with
  | jp nnn =>
    cases h
    have := nnn.isLt
    simp only [setPc_pc, addrOperand_toNat]
    omega
  | jpV0 nnn =>
    cases h
    have := nnn.isLt; have := (s.getV 0).isLt
    simp only [setPc_pc, offsetTarget_toNat]
    omega
  | call nnn =>
    obtain ⟨_, rfl⟩ | ⟨_, rfl⟩ := execCall_cases h
    · have := nnn.isLt
      simp only [setPc_pc, addrOperand_toNat]
      omega
    · exact .inl rfl
  | ret =>
    obtain ⟨a, rest, hs, rfl⟩ | ⟨_, rfl⟩ := execRet_cases h
    · simp [hs]
    · exact .inl rfl
  | seImm | sneImm | seReg | sneReg | skp | sknp =>
    cases h
    rw [skipIf_pc]
    split
    · exact .inr (.inl rfl)
    · exact .inl rfl
  | ldVxK =>
    obtain ⟨_, rfl⟩ | ⟨_, rfl⟩ := execLdVxK_cases h
    · exact .inr (.inr (.inl rfl))
    · exact .inl rfl
  | drw | ldB | ldMemRegs | ldRegsMem => obtain ⟨_, rfl⟩ | ⟨_, rfl⟩ := ifInBounds_cases h <;> exact .inl rfl
  | _ => cases h; exact .inl rfl

/-- The bound of pc (R27) for an instruction that was fetched, so that pc is past it and in 2 to 0x1000. -/
theorem exec_pc_le {i : Instr} {s t : State} (ha : ∀ a ∈ s.stack, a.toNat ≤ 0x1000) (hp2 : 2 ≤ s.pc.toNat)
    (hp : s.pc.toNat ≤ 0x1000) (h : exec i s = .next t) : t.pc.toNat ≤ 0x10FE := by
  rcases exec_pc_cases h with he | he | he | hm | hle
  · rw [he]; omega
  · rw [he]; bv_omega
  · rw [he]; bv_omega
  · exact (ha _ hm).trans (by decide)
  · exact hle

theorem exec_inv {i : Instr} {s t : State} (hs : s.Inv) (hp2 : 2 ≤ s.pc.toNat) (hp : s.pc.toNat ≤ 0x1000)
    (h : exec i s = .next t) : t.Inv := by
  obtain ⟨hm, hl, ha, -⟩ := hs
  obtain ⟨hl', ha'⟩ := exec_stack_bounds hl ha hp h
  exact ⟨exec_mem_wf hm h, hl', ha', exec_pc_le ha hp2 hp h⟩

/-- The invariant speaks of memory, call stack and pc alone. -/
theorem State.Inv.of_eq {s t : State} (hs : s.Inv) (hm : t.mem = s.mem) (hst : t.stack = s.stack) (hp : t.pc = s.pc) :
    t.Inv := by
  rwa [State.Inv, hm, hst, hp]

/-- Past a fetched word pc is in 2 to 0x1000 (R90). -/
theorem advancePc_toNat {s : State} (hp : s.pc.toNat + 1 ≤ 0xFFF) : s.advancePc.pc.toNat = s.pc.toNat + 2 := by
  simp only [State.advancePc, setPc_pc]
  bv_omega

theorem State.Inv.advancePc {s : State} (hs : s.Inv) (hp : s.pc.toNat + 1 ≤ 0xFFF) : s.advancePc.Inv := by
  obtain ⟨hm, hl, ha, -⟩ := hs
  refine ⟨hm, hl, ha, ?_⟩
  rw [advancePc_toNat hp]
  omega

theorem stepInstr_inv {s t : State} (hs : s.Inv) (h : stepInstr s = .next t) : t.Inv := by
  rcases stepInstr_cases s with ⟨_, _, he⟩ | ⟨_, _, he⟩ | ⟨_, hp, i, _, he⟩ | ⟨_, hp, w, _, he⟩ <;> rw [he] at h
  · cases h
    exact hs
  · cases h
    exact hs.of_eq rfl rfl rfl
  · have hpc := advancePc_toNat hp
    exact exec_inv (hs.advancePc hp) (by omega) (by omega) h
  · cases h
    exact (hs.advancePc hp).of_eq rfl rfl rfl

theorem performHostOp_inv {op : HostOp} {s t : State} (hs : s.Inv) (h : performHostOp op s = .next t) : t.Inv := by
  obtain ⟨_, h⟩ | ⟨_, rfl⟩ | ⟨_, _, _, rfl⟩ | ⟨_, _, _, rfl⟩ | ⟨_, rfl⟩ := performHostOp_cases h
  · exact stepInstr_inv hs h
  · exact hs.of_eq rfl rfl rfl
  · exact hs.of_eq rfl rfl rfl
  · exact hs.of_eq rfl rfl rfl
  · exact hs

/-- Settles O18: the step is a host operation on the state with the schedule moved on. -/
theorem everyStepKeepsTheMachineInvariant : Obligations.EveryStepKeepsTheMachineInvariant :=
  fun s _ hs h => performHostOp_inv (hs.of_eq (t := s.hostTurn) rfl rfl rfl) h

/-- Settles O19: the launch memory and call stack are empty, and pc is 0x200. -/
theorem launchStateMeetsTheMachineInvariant : Obligations.LaunchStateMeetsTheMachineInvariant :=
  ⟨rfl, by decide, List.forall_mem_nil _, by decide⟩

end Sys2Proof.Machine

/-! PROOFS. The values at launch (10_state.md R40). -/

namespace Sys2Proof.Machine

/-- Past the 80 bytes of the font an unlisted address reads 0 (R40). -/
theorem unlistedByte_of_le {a : Nat} (h : 0x050 ≤ a) : unlistedByte a = 0 :=
  List.getD_eq_default _ _ h

theorem reset_getV (r : Reg) : State.reset.getV r = 0 :=
  Vector.getElem_replicate r.isLt

theorem reset_fb (x : Fin 64) (y : Fin 32) : fbGet State.reset.fb x y = false :=
  fbGet_fbClear x y

/-- Settles O20: the launch memory lists nothing, so it reads as an unlisted address. -/
theorem launchStateHasTheLaunchValues : Obligations.LaunchStateHasTheLaunchValues :=
  ⟨rfl, rfl, reset_fb, rfl, rfl, reset_getV, rfl, rfl, rfl, fun _ h => unlistedByte_of_le h, by decide⟩

end Sys2Proof.Machine

/-! PROOFS. The two outputs, FB and ST, feed back into nothing else (10_state.md R31, R32). -/

namespace Sys2Proof.Machine

/-- The state with other values in the machine's outputs: ST, which stands for the sound, and FB. -/
def State.withOutputs (s : State) (b : Byte) (fb : Framebuffer) : State := { s with st := b, fb := fb }

theorem skipIf_withOutputs (s : State) (b : Byte) (fb : Framebuffer) (c : Bool) :
    (s.withOutputs b fb).skipIf c = (s.skipIf c).withOutputs b fb := by
  cases c <;> rfl

/-- The bounds check looks at neither state, so that it answers alike under any update `f` that a halt commutes with. -/
theorem ifInBounds_map {base count : Nat} {s w t : State} (f : State → State)
    (hf : ∀ r, { f s with halted := some r } = f { s with halted := some r })
    (h : ifInBounds base count s w = .next t) : ifInBounds base count (f s) (f w) = .next (f t) := by
  obtain ⟨hb, rfl⟩ | ⟨hb, rfl⟩ := ifInBounds_cases h
  · exact ifInBounds_of_in _ _ hb
  · rw [ifInBounds_of_out _ _ hb, hf]

/-- An instruction that writes no output reads none (R31, R32). -/
theorem exec_withOutputs {i : Instr} {s t : State} (b : Byte) (fb : Framebuffer) (hst : (writesOf s i).st = false)
    (hfb : (writesOf s i).fb = false) (h : exec i s = .next t) :
    exec i (s.withOutputs b fb) = .next (t.withOutputs b fb) := by
  cases i with
  | cls | drw | ldStVx => contradiction
  | ret =>
    obtain ⟨a, rest, hs, rfl⟩ | ⟨hs, rfl⟩ := execRet_cases h
    · exact execRet_of_cons (s := s.withOutputs b fb) hs
    · exact execRet_of_nil (s := s.withOutputs b fb) hs
  | call nnn =>
    obtain ⟨hl, rfl⟩ | ⟨hl, rfl⟩ := execCall_cases h
    · exact execCall_of_room (s := s.withOutputs b fb) nnn hl
    · exact execCall_of_full (s := s.withOutputs b fb) nnn hl
  | ldVxK x =>
    obtain ⟨hk, rfl⟩ | ⟨hk, rfl⟩ := execLdVxK_cases h
    · exact execLdVxK_of_none (s := s.withOutputs b fb) x hk
    · exact execLdVxK_of_held (s := s.withOutputs b fb) x hk
  | seImm | sneImm | seReg | sneReg | skp | sknp =>
    cases h
    exact congrArg Host.Outcome.next (skipIf_withOutputs s b fb _)
  | ldB | ldMemRegs | ldRegsMem => exact ifInBounds_map (State.withOutputs · b fb) (fun _ => rfl) h
  | _ => cases h; rfl

theorem exec_with_st {i : Instr} {s t : State} (b : Byte) (h : exec i s = .next t) :
    ∃ b', exec i { s with st := b } = .next { t with st := b' } := by
  by_cases hst : (writesOf s i).st = false
  · refine ⟨b, ?_⟩
    by_cases hfb : (writesOf s i).fb = false
    · exact (exec_withOutputs b s.fb hst hfb h).trans (by rw [← (exec_changesOnly h).fb hfb]; rfl)
    · obtain rfl | ⟨x, y, n, rfl⟩ := writesOf_fb (Bool.eq_true_of_not_eq_false hfb)
      · cases h; rfl
      · exact ifInBounds_map ({ · with st := b }) (fun _ => rfl) h
  · obtain ⟨x, rfl⟩ := writesOf_st (Bool.eq_true_of_not_eq_false hst)
    cases h
    exact ⟨s.getV x, rfl⟩

/-- Settles O25: CLS ignores FB, LD ST leaves it, and no other form but DRW touches an output. -/
theorem framebufferIsReadByDrawAlone : Obligations.FramebufferIsReadByDrawAlone := by
  intro i s t fb hdrw h
  by_cases hfb : (writesOf s i).fb = false
  · refine ⟨fb, ?_⟩
    by_cases hst : (writesOf s i).st = false
    · exact (exec_withOutputs s.st fb hst hfb h).trans (by rw [← (exec_changesOnly h).st hst]; rfl)
    · obtain ⟨x, rfl⟩ := writesOf_st (Bool.eq_true_of_not_eq_false hst)
      cases h; rfl
  · obtain rfl | ⟨x, y, n, rfl⟩ := writesOf_fb (Bool.eq_true_of_not_eq_false hfb)
    · cases h
      exact ⟨fbClear, rfl⟩
    · exact absurd rfl (hdrw x y n)

theorem stepInstr_of_halted {s : State} {r : HaltReason} (h : s.halted = some r) : stepInstr s = .next s := by
  simp [stepInstr, h]

theorem stepInstr_of_out {s : State} (h : s.halted = none) (hp : s.pc.toNat + 1 > 0xFFF) :
    stepInstr s = .next { s with halted := some (.memoryOutOfBounds (max s.pc.toNat 0x1000)) } := by
  simp [stepInstr, h, fetchHalt_of_out hp, takeHalt]

theorem stepInstr_of_in {s : State} (h : s.halted = none) (hp : s.pc.toNat + 1 ≤ 0xFFF) :
    stepInstr s = execDecoded (decodeWord (fetchWord s)) s.advancePc := by
  simp [stepInstr, h, fetchHalt_of_in hp]

theorem execDecoded_with_st {d : Decoded} {s t : State} (b : Byte) (h : execDecoded d s = .next t) :
    ∃ b', execDecoded d { s with st := b } = .next { t with st := b' } := by
  cases d with
  | instr i => exact exec_with_st b h
  | unsupported w => cases h; exact ⟨b, rfl⟩

theorem stepInstr_with_st {s t : State} (b : Byte) (h : stepInstr s = .next t) :
    ∃ b', stepInstr { s with st := b } = .next { t with st := b' } := by
  obtain hh | ⟨r, hh⟩ := Option.eq_none_or_eq_some s.halted
  · by_cases hp : s.pc.toNat + 1 ≤ 0xFFF
    · rw [stepInstr_of_in hh hp] at h
      rw [stepInstr_of_in (s := { s with st := b }) hh hp]
      exact execDecoded_with_st (s := s.advancePc) b h
    · rw [stepInstr_of_out hh (Nat.lt_of_not_le hp)] at h
      cases h
      exact ⟨b, stepInstr_of_out (s := { s with st := b }) hh (Nat.lt_of_not_le hp)⟩
  · rw [stepInstr_of_halted hh] at h
    cases h
    exact ⟨b, stepInstr_of_halted (s := { s with st := b }) hh⟩

theorem performHostOp_with_st {op : HostOp} {s t : State} (b : Byte) (h : performHostOp op s = .next t) :
    ∃ b', performHostOp op { s with st := b } = .next { t with st := b' } := by
  obtain ⟨rfl, h⟩ | ⟨rfl, rfl⟩ | ⟨code, rfl, hc, rfl⟩ | ⟨code, rfl, hc, rfl⟩ | ⟨rfl, rfl⟩ := performHostOp_cases h
  · exact stepInstr_with_st b h
  · exact ⟨countDown b, rfl⟩
  · exact ⟨b, if_pos hc⟩
  · exact ⟨b, if_pos hc⟩
  · exact ⟨b, rfl⟩

/-- Settles O24: the host operation of the step is the same, whatever ST holds. -/
theorem soundTimerInfluencesNothingElse : Obligations.SoundTimerInfluencesNothingElse :=
  fun _ _ b h => performHostOp_with_st b h

end Sys2Proof.Machine

/-! PROOFS. The block store LD [I], Vx, and the fetch that sees what it stored (20_memory.md R73). -/

namespace Sys2Proof.Machine

/-- LD [I], Vx where the block lies in memory (R215). -/
theorem execLdMemRegs_of_in {x : Reg} {s : State} (h : s.i.toNat + x.val ≤ 0xFFF) :
    execLdMemRegs x s =
      .next { s with mem := s.mem.writeBlock (effAddr s 0) (blockBytes s x), i := blockNextI s x } := by
  refine ifInBounds_of_in _ _ (.inr ?_)
  rw [effAddr_zero, blockCount]
  omega

/-- The stored block holds V[k] at I + k (R215). -/
theorem read_writeBlock_blockBytes {x k : Reg} {s : State} (hm : s.mem.wf = true) (hb : s.i.toNat + x.val ≤ 0xFFF)
    (hk : k ≤ x) : (s.mem.writeBlock (effAddr s 0) (blockBytes s x)).read (effAddr s k.val) = s.getV k := by
  have hlen : k.val < (blockBytes s x).length := by
    rw [blockBytes_length]
    exact Nat.lt_succ_of_le hk
  have hfit : effAddr s 0 + (blockBytes s x).length ≤ 4096 := by
    rw [effAddr_zero, blockBytes_length]
    omega
  exact (Memory.read_writeBlock_inside hm hfit hlen).trans (blockBytes_getElem s x k hlen)

/-- Settles O51: pc and pc + 1 are the addresses of V[hi] and V[lo] in the stored block. -/
theorem fetchSeesTheStoredWord : Obligations.FetchSeesTheStoredWord := by
  intro x hi lo s t hm hb hpc hlo hle h
  obtain rfl := Host.Outcome.next.inj ((execLdMemRegs_of_in hb).symm.trans h)
  have hle' : hi ≤ x := le_trans (Fin.le_def.mpr (by omega)) hle
  have hpc1 : s.pc.toNat + 1 = effAddr s lo.val := by
    rw [effAddr_eq]
    omega
  refine ⟨rfl, ?_⟩
  rw [fetchWord_def, wordOfBytes_toNat]
  dsimp only
  rw [hpc1, hpc, ← effAddr_eq, read_writeBlock_blockBytes hm hb hle', read_writeBlock_blockBytes hm hb hle]

end Sys2Proof.Machine

/-! PROOFS. The decoder and the encoder are inverse to each other, and the words no instruction has (30_encoding.md
R94, R95). Both directions are proved on nibbles, where the opcode table is written. -/

namespace Sys2Proof

@[simp] theorem nibblesA_a (a : Nibble) (nnn : Addr12) : (nibblesA a nnn).a = a := rfl

/-- `SYS` is well-formed with every address but those of CLS and RET (R141). -/
theorem wf_sys_iff (nnn : Addr12) : (Instr.sys nnn).wf = true ↔ nnn.toNat ≠ 0x0E0 ∧ nnn.toNat ≠ 0x0EE := by
  simp [Instr.wf, BitVec.toNat_eq]

/-- The decoder's tests for CLS and RET, which come before SYS, both fail on such an address (R94). -/
theorem decode0_nibblesA {nnn : Addr12} (h : (Instr.sys nnn).wf = true) :
    decode0 (nibblesA 0x0 nnn) = .instr (.sys nnn) := by
  obtain ⟨hcls, hret⟩ := (wf_sys_iff nnn).mp h
  have := nnn.isLt
  rw [decode0, addrOf_nibblesA, if_neg, if_neg]
  all_goals
    simp only [nibblesA]
    omega

/-- The dispatch on an instruction's own nibbles finds the instruction, whatever the raw word beside them. -/
theorem decodeNibbles_encodeNibbles (w : Word) {i : Instr} (h : i.wf = true) :
    decodeNibbles w (encodeNibbles i) = .instr i := by
  cases i with
  | sys nnn => exact decode0_nibblesA h
  | jp | call | ldI | jpV0 => simp [encodeNibbles, decodeNibbles]
  | seImm | sneImm | ldImm | addImm | rnd => simp [encodeNibbles, nibblesXK, decodeNibbles]
  | _ => rfl

theorem decodeWord_encode {i : Instr} (h : i.wf = true) : decodeWord (encode i) = .instr i :=
  (decodeWord_packNibbles _).trans (decodeNibbles_encodeNibbles _ h)

/-- Settles O1: the encoder's nibbles select the instruction, and packing them loses nothing. -/
theorem decodeOfEncodeIsTheInstruction : Obligations.DecodeOfEncodeIsTheInstruction :=
  fun _ h => decodeWord_encode h

/-- The nibbles R95 lists as no instruction's. -/
def Nibbles.Illegal (n : Nibbles) : Prop :=
  ((n.a.val = 0x5 ∨ n.a.val = 0x9) ∧ n.d.val ≠ 0) ∨
  (n.a.val = 0x8 ∧ n.d.val ∈ [0x8, 0x9, 0xA, 0xB, 0xC, 0xD, 0xF]) ∨
  (n.a.val = 0xE ∧ n.c.val * 16 + n.d.val ∉ [0x9E, 0xA1]) ∨
  (n.a.val = 0xF ∧ n.c.val * 16 + n.d.val ∉ [0x07, 0x0A, 0x15, 0x18, 0x1E, 0x29, 0x33, 0x55, 0x65])

/-- What a decoder may answer on the nibbles `n` of the word `w`: a well-formed instruction with these nibbles, or
`w` itself where R95 lists them. -/
def IsReading (w : Word) (n : Nibbles) : Decoded → Prop
  | .instr i => i.wf = true ∧ encodeNibbles i = n
  | .unsupported u => u = w ∧ n.Illegal

/-- Nibbles with the same numbers are the same. -/
theorem Nibbles.mk_eq {a b c d b' c' d' : Nibble} (hb : b.val = b'.val) (hc : c.val = c'.val) (hd : d.val = d'.val) :
    Nibbles.mk a b' c' d' = ⟨a, b, c, d⟩ := by
  rw [Fin.ext hb, Fin.ext hc, Fin.ext hd]

theorem nibblesXK_byteOf (a b c d : Nibble) : nibblesXK a b (byteOf c d) = ⟨a, b, c, d⟩ := by
  simp [nibblesXK]

section Readings

variable (w : Word) (b c d : Nibble)

theorem decode0_isReading : IsReading w ⟨0x0, b, c, d⟩ (decode0 ⟨0x0, b, c, d⟩) := by
  unfold decode0
  split_ifs with hcls hret
  · obtain ⟨hb, hc, hd⟩ := hcls
    exact ⟨rfl, Nibbles.mk_eq hb hc hd⟩
  · obtain ⟨hb, hc, hd⟩ := hret
    exact ⟨rfl, Nibbles.mk_eq hb hc hd⟩
  · refine ⟨?_, nibblesA_addrOf 0x0 b c d⟩
    rw [wf_sys_iff, addrOf_toNat]
    dsimp only at hcls hret ⊢
    omega

theorem decode8_isReading : IsReading w ⟨0x8, b, c, d⟩ (decode8 w ⟨0x8, b, c, d⟩) := by
  match d with
  | 0x8 | 0x9 | 0xA | 0xB | 0xC | 0xD | 0xF => exact ⟨rfl, .inr (.inl ⟨rfl, by simp⟩)⟩
  | 0x0 | 0x1 | 0x2 | 0x3 | 0x4 | 0x5 | 0x6 | 0x7 | 0xE => exact ⟨rfl, rfl⟩
  | ⟨_ + 16, h⟩ => omega

theorem decodeE_isReading : IsReading w ⟨0xE, b, c, d⟩ (decodeE w ⟨0xE, b, c, d⟩) := by
  unfold decodeE
  split_ifs with hskp hsknp
  · exact ⟨rfl, Nibbles.mk_eq rfl hskp.1 hskp.2⟩
  · exact ⟨rfl, Nibbles.mk_eq rfl hsknp.1 hsknp.2⟩
  · refine ⟨rfl, .inr (.inr (.inl ⟨rfl, ?_⟩))⟩
    simp only [List.mem_cons, List.not_mem_nil, or_false]
    dsimp only at hskp hsknp
    omega

theorem decodeF_isReading : IsReading w ⟨0xF, b, c, d⟩ (decodeF w ⟨0xF, b, c, d⟩) := by
  unfold decodeF
  split_ifs
  case neg =>
    refine ⟨rfl, .inr (.inr (.inr ⟨rfl, ?_⟩))⟩
    simp only [List.mem_cons, List.not_mem_nil, or_false]
    dsimp only at *
    omega
  all_goals -- `h` is the test that selected the form
    rename_i h
    exact ⟨rfl, Nibbles.mk_eq rfl h.1 h.2⟩

end Readings

/-- The dispatch answers a reading of its nibbles: the table leaves no nibbles out (R100). -/
theorem decodeNibbles_isReading (w : Word) (n : Nibbles) : IsReading w n (decodeNibbles w n) := by
  obtain ⟨a, b, c, d⟩ := n
  match a with
  | 0x0 => exact decode0_isReading w b c d
  | 0x8 => exact decode8_isReading w b c d
  | 0xE => exact decodeE_isReading w b c d
  | 0xF => exact decodeF_isReading w b c d
  | 0x1 | 0x2 | 0xA | 0xB => exact ⟨rfl, nibblesA_addrOf _ b c d⟩
  | 0x3 | 0x4 | 0x6 | 0x7 | 0xC => exact ⟨rfl, nibblesXK_byteOf _ b c d⟩
  | 0xD => exact ⟨rfl, rfl⟩
  | 0x5 | 0x9 =>
    by_cases hd : d.val = 0
    · simp only [decodeNibbles, if_pos hd]
      exact ⟨rfl, Nibbles.mk_eq rfl rfl hd⟩
    · simp only [decodeNibbles, if_neg hd]
      exact ⟨rfl, .inl ⟨by simp, hd⟩⟩
  | ⟨_ + 16, h⟩ => omega

theorem decodeWord_isReading (w : Word) : IsReading w (nibbles w) (decodeWord w) :=
  decodeNibbles_isReading w (nibbles w)

theorem wf_and_encode_of_decodeWord {w : Word} {i : Instr} (h : decodeWord w = .instr i) :
    i.wf = true ∧ encode i = w := by
  obtain ⟨hwf, hn⟩ : IsReading w (nibbles w) (.instr i) := h ▸ decodeWord_isReading w
  exact ⟨hwf, by rw [encode, hn, packNibbles_nibbles]⟩

/-- Settles O2: the instruction's nibbles are those of the word, and the word is its nibbles packed. -/
theorem decodedWordIsTheEncoding : Obligations.DecodedWordIsTheEncoding :=
  fun _ _ h => wf_and_encode_of_decodeWord h

/-- Each fixed nibble of the opcode table is outside what R95 lists for its nibble A. -/
theorem encodeNibbles_not_illegal (i : Instr) : ¬ (encodeNibbles i).Illegal := by
  cases i <;> simp [Nibbles.Illegal, encodeNibbles, nibblesA, nibblesXK]

/-- The words the decoder refuses (R95). -/
theorem decodeWord_eq_unsupported_iff {w u : Word} :
    decodeWord w = .unsupported u ↔ u = w ∧ (nibbles w).Illegal := by
  have hr := decodeWord_isReading w
  cases hd : decodeWord w with
  | instr i =>
    rw [hd] at hr
    obtain ⟨-, hn⟩ := hr
    rw [← hn]
    simp [encodeNibbles_not_illegal i]
  | unsupported v =>
    rw [hd] at hr
    obtain ⟨rfl, hill⟩ := hr
    simp [hill, eq_comm]

/-- The nibbles R95 lists, as numbers of the word. -/
theorem illegal_nibbles_iff (w : Word) :
    (nibbles w).Illegal ↔
      ((w.toNat / 4096 = 0x5 ∨ w.toNat / 4096 = 0x9) ∧ w.toNat % 16 ≠ 0) ∨
      (w.toNat / 4096 = 0x8 ∧ w.toNat % 16 ∈ [0x8, 0x9, 0xA, 0xB, 0xC, 0xD, 0xF]) ∨
      (w.toNat / 4096 = 0xE ∧ w.toNat % 256 ∉ [0x9E, 0xA1]) ∨
      (w.toNat / 4096 = 0xF ∧ w.toNat % 256 ∉ [0x07, 0x0A, 0x15, 0x18, 0x1E, 0x29, 0x33, 0x55, 0x65]) := by
  have ha : (nibbles w).a.val = w.toNat / 4096 := by
    rw [nibbles, nibbleAt_val]
    have := w.isLt
    omega
  have hd : (nibbles w).d.val = w.toNat % 16 := by
    rw [nibbles, nibbleAt_val, Nat.pow_zero, Nat.div_one]
  have hcd : (nibbles w).c.val * 16 + (nibbles w).d.val = w.toNat % 256 := by
    rw [hd, nibbles, nibbleAt_val]
    omega
  rw [Nibbles.Illegal, hcd, ha, hd]

/-- Settles O3: the decoder refuses the listed nibbles alone, and the halt is the arm of `execDecoded`. -/
theorem unsupportedWordsAreThoseListed : Obligations.UnsupportedWordsAreThoseListed :=
  ⟨fun _ _ => rfl, fun w _ => decodeWord_eq_unsupported_iff.trans (and_congr_right' (illegal_nibbles_iff w))⟩

/-- A word's number decides whether it is an instruction's word. -/
theorem hasWord_of_toNat {i : Instr} {k : Nat} (hwf : i.wf = true) (hk : (encode i).toNat = k) :
    Machine.HasWord i k := by
  subst hk
  rw [Machine.HasWord, BitVec.ofNat_toNat, BitVec.setWidth_eq]
  exact ⟨decodeWord_encode hwf, rfl⟩

/-! The number of a word in each of the formats of R92. -/

section Formats

variable {i : Instr}

/-- Format `A`: nibble A and an address. -/
theorem hasWord_address (a : Nibble) {nnn : Addr12} (hwf : i.wf = true) (hn : encodeNibbles i = nibblesA a nnn) :
    Machine.HasWord i (0x1000 * a.val + nnn.toNat) := by
  refine hasWord_of_toNat hwf ?_
  simp only [encode, hn, packNibbles_toNat, nibblesA]
  omega

/-- Format `XK`: nibble A, a register and a byte. -/
theorem hasWord_byte (a : Nibble) {x : Reg} {nn : Byte} (hwf : i.wf = true) (hn : encodeNibbles i = nibblesXK a x nn) :
    Machine.HasWord i (0x1000 * a.val + 0x100 * x.val + nn.toNat) := by
  refine hasWord_of_toNat hwf ?_
  simp only [encode, hn, packNibbles_toNat, nibblesXK, byteHi, byteLo]
  omega

/-- Two registers between fixed nibbles A and D. -/
theorem hasWord_registers (a d : Nibble) {x y : Reg} (hwf : i.wf = true) (hn : encodeNibbles i = ⟨a, x, y, d⟩) :
    Machine.HasWord i (0x1000 * a.val + d.val + 0x100 * x.val + 0x10 * y.val) := by
  refine hasWord_of_toNat hwf ?_
  simp only [encode, hn, packNibbles_toNat]
  omega

/-- One register between a fixed nibble A and a fixed low byte. -/
theorem hasWord_register (a c d : Nibble) {x : Reg} (hwf : i.wf = true) (hn : encodeNibbles i = ⟨a, x, c, d⟩) :
    Machine.HasWord i (0x1000 * a.val + 0x10 * c.val + d.val + 0x100 * x.val) := by
  refine hasWord_of_toNat hwf ?_
  simp only [encode, hn, packNibbles_toNat]
  omega

end Formats

/-- SYS has the word of every address but those of CLS and RET (R141). -/
theorem hasWord_sys {nnn : Addr12} (hcls : nnn ≠ 0x0E0) (hret : nnn ≠ 0x0EE) :
    Machine.HasWord (.sys nnn) nnn.toNat := by
  have hwf : (Instr.sys nnn).wf = true :=
    (wf_sys_iff nnn).mpr ⟨mt (BitVec.eq_of_toNat_eq (y := 0x0E0)) hcls, mt (BitVec.eq_of_toNat_eq (y := 0x0EE)) hret⟩
  simpa using hasWord_address 0x0 hwf rfl

theorem hasWord_drw (x y : Reg) (n : Nibble) :
    Machine.HasWord (.drw x y n) (0xD000 + 0x100 * x.val + 0x10 * y.val + n.val) := by
  refine hasWord_of_toNat rfl ?_
  simp only [encode, encodeNibbles, packNibbles_toNat]
  omega

/-- Settles O4, format by format. -/
theorem everyFormHasItsWord : Obligations.EveryFormHasItsWord :=
  ⟨hasWord_of_toNat rfl rfl, hasWord_of_toNat rfl rfl, fun _ hcls hret => hasWord_sys hcls hret,
    fun _ => ⟨hasWord_address 0x1 rfl rfl, hasWord_address 0x2 rfl rfl, hasWord_address 0xA rfl rfl,
      hasWord_address 0xB rfl rfl⟩,
    fun _ _ => ⟨hasWord_byte 0x3 rfl rfl, hasWord_byte 0x4 rfl rfl, hasWord_byte 0x6 rfl rfl, hasWord_byte 0x7 rfl rfl,
      hasWord_byte 0xC rfl rfl⟩,
    fun _ _ => ⟨hasWord_registers 0x5 0x0 rfl rfl, hasWord_registers 0x9 0x0 rfl rfl,
      hasWord_registers 0x8 0x0 rfl rfl, hasWord_registers 0x8 0x1 rfl rfl, hasWord_registers 0x8 0x2 rfl rfl,
      hasWord_registers 0x8 0x3 rfl rfl, hasWord_registers 0x8 0x4 rfl rfl, hasWord_registers 0x8 0x5 rfl rfl,
      hasWord_registers 0x8 0x6 rfl rfl, hasWord_registers 0x8 0x7 rfl rfl, hasWord_registers 0x8 0xE rfl rfl⟩,
    hasWord_drw,
    fun _ => ⟨hasWord_register 0xE 0x9 0xE rfl rfl, hasWord_register 0xE 0xA 0x1 rfl rfl,
      hasWord_register 0xF 0x0 0x7 rfl rfl, hasWord_register 0xF 0x0 0xA rfl rfl,
      hasWord_register 0xF 0x1 0x5 rfl rfl, hasWord_register 0xF 0x1 0x8 rfl rfl,
      hasWord_register 0xF 0x1 0xE rfl rfl, hasWord_register 0xF 0x2 0x9 rfl rfl,
      hasWord_register 0xF 0x3 0x3 rfl rfl, hasWord_register 0xF 0x5 0x5 rfl rfl,
      hasWord_register 0xF 0x6 0x5 rfl rfl⟩⟩

/-- Settles O5: each word is the encoding of its instruction. -/
theorem wordsWrittenFromTheTableDecode : Obligations.WordsWrittenFromTheTableDecode :=
  ⟨decodeWord_encode (i := .cls) rfl, decodeWord_encode (i := .ret) rfl, decodeWord_encode (i := .jp 0xABC) rfl,
    decodeWord_encode (i := .seImm 3 0x42) rfl, decodeWord_encode (i := .addReg 1 2) rfl,
    decodeWord_encode (i := .drw 1 2 5) rfl, decodeWord_encode (i := .skp 2) rfl,
    decodeWord_encode (i := .ldMemRegs 2) rfl⟩

end Sys2Proof

/-! PROOFS. The Step that cannot run an instruction, and that every step answers (30_encoding.md R90, R95, R100). -/

namespace Sys2Proof.Machine

/-- Settles O7: the fetch fails on the state with the schedule moved on. -/
theorem fetchPastMemoryHalts : Obligations.FetchPastMemoryHalts := by
  intro s hc hh hp
  rw [step_of_hostCalls hc]
  exact stepInstr_of_out (s := s.hostTurn) hh hp

/-- A Step with a fetchable word runs what the word decodes to, past it (R121). -/
theorem step_of_in {s : State} (hc : s.HostCalls .step) (hh : s.halted = none) (hp : s.pc.toNat + 1 ≤ 0xFFF) :
    step s = execDecoded (decodeWord (fetchWord s)) s.fetched := by
  rw [step_of_hostCalls hc]
  exact stepInstr_of_in (s := s.hostTurn) hh hp

theorem fetchWord_toNat (s : State) :
    (fetchWord s).toNat = 256 * (s.mem.read s.pc.toNat).toNat + (s.mem.read (s.pc.toNat + 1)).toNat := by
  rw [fetchWord_def, wordOfBytes_toNat]

/-- Settles O8: a word that is no instruction's decodes to itself as illegal. -/
theorem illegalWordHaltsWithTheRawWord : Obligations.IllegalWordHaltsWithTheRawWord := by
  intro s w hc hh hp hw hno
  obtain rfl : fetchWord s = w := BitVec.eq_of_toNat_eq ((fetchWord_toNat s).trans hw.symm)
  rw [step_of_in hc hh hp]
  cases hd : decodeWord (fetchWord s) with
  | instr i => exact absurd hd (hno i)
  | unsupported u =>
    obtain ⟨rfl, -⟩ := decodeWord_eq_unsupported_iff.mp hd
    rfl

theorem ifInBounds_answers (base count : Nat) (s w : State) : ∃ t, ifInBounds base count s w = .next t := by
  by_cases h : count = 0 ∨ base + count ≤ 4096
  · exact ⟨_, ifInBounds_of_in s w h⟩
  · exact ⟨_, ifInBounds_of_out s w h⟩

/-- Every instruction answers a next state: a failed check is a halt, which is one (R122, R124). -/
theorem exec_answers (i : Instr) (s : State) : ∃ t, exec i s = .next t := by
  cases i with
  | ret =>
    cases hs : s.stack with
    | nil => exact ⟨_, execRet_of_nil hs⟩
    | cons a rest => exact ⟨_, execRet_of_cons hs⟩
  | call nnn =>
    rcases Nat.lt_or_ge s.stack.length 16 with hl | hl
    · exact ⟨_, execCall_of_room nnn hl⟩
    · exact ⟨_, execCall_of_full nnn hl⟩
  | ldVxK x =>
    by_cases hk : s.keys = 0#16
    · exact ⟨_, execLdVxK_of_none x hk⟩
    · exact ⟨_, execLdVxK_of_held x hk⟩
  | drw | ldB | ldMemRegs | ldRegsMem => exact ifInBounds_answers _ _ s _
  | _ => exact ⟨_, rfl⟩

theorem stepInstr_answers (s : State) : ∃ t, stepInstr s = .next t := by
  obtain ⟨_, _, h⟩ | ⟨_, _, h⟩ | ⟨_, _, i, _, h⟩ | ⟨_, _, _, _, h⟩ := stepInstr_cases s
  · exact ⟨_, h⟩
  · exact ⟨_, h⟩
  · rw [h]
    exact exec_answers i s.advancePc
  · exact ⟨_, h⟩

theorem performHostOp_answers {op : HostOp} (h : op.Offered) (s : State) : ∃ t, performHostOp op s = .next t := by
  cases op with
  | step => exact stepInstr_answers s
  | tick | readFramebuffer => exact ⟨_, rfl⟩
  | keyDown code => exact ⟨_, if_pos (h code (.inl rfl))⟩
  | keyUp code => exact ⟨_, if_pos (h code (.inr rfl))⟩

/-- Settles O14: the step is the host operation that comes next. -/
theorem everyStepAnswers : Obligations.EveryStepAnswers :=
  fun s h => performHostOp_answers h s.hostTurn

end Sys2Proof.Machine

/-! PROOFS. The execution cycle: Step, halts and the host's other operations (40_execution_cycle.md R120 to R127). -/

namespace Sys2Proof.Machine

/-- Settles O6: the word of the two bytes is the fetched word. -/
theorem stepRunsTheInstructionAtPc : Obligations.StepRunsTheInstructionAtPc := by
  intro s i hc hh hp hd
  rw [← fetchWord_toNat, BitVec.ofNat_toNat, BitVec.setWidth_eq] at hd
  rw [step_of_in hc hh hp, hd]
  rfl

/-- Settles O13: the operation answers the state it was called in. -/
theorem readFramebufferChangesNothing : Obligations.ReadFramebufferChangesNothing :=
  fun _ hc => ⟨fun _ _ => rfl, step_of_hostCalls hc⟩

theorem getLsbD_keyBit (code : Nat) {k : Nat} (hk : k < 16) : (keyBit code).getLsbD k = decide (k = code) := by
  rw [keyBit, ← BitVec.twoPow_eq, BitVec.getLsbD_twoPow]
  by_cases h : k = code
  · simp [← h, hk]
  · simp [h, Ne.symm h]

/-- Settles O12: a key event is an OR with the code's bit or an AND with all the others. -/
theorem keyEventsSetAndClearOneBit : Obligations.KeyEventsSetAndClearOneBit := by
  intro s code
  refine ⟨fun hc hlt => ?_, fun hc hlt => ?_, fun hc hge => ?_⟩
  · refine ⟨_, (step_of_hostCalls hc).trans (if_pos hlt), fun k hk => ?_, rfl⟩
    simp only [BitVec.getLsbD_or, getLsbD_keyBit code hk, Bool.or_comm, hostTurn_keys]
  · refine ⟨_, (step_of_hostCalls hc).trans (if_pos hlt), fun k hk => ?_, rfl⟩
    simp only [BitVec.getLsbD_and, BitVec.getLsbD_not, getLsbD_keyBit code hk, hk, decide_true, Bool.true_and,
      Bool.and_comm, hostTurn_keys]
  · obtain hc | hc := hc <;> exact (step_of_hostCalls hc).trans (if_neg (Nat.not_lt.mpr hge))

/-! Precise halts (R128, R304). -/

/-- An instruction leaves `halted` alone, or writes nothing else (R65, R304). -/
theorem exec_halted_cases {i : Instr} {s t : State} (h : exec i s = .next t) :
    t.halted = s.halted ∨ ∃ r, t = { s with halted := some r } := by
  cases i with
  | sys => cases h; exact .inr ⟨_, rfl⟩
  | ret =>
    obtain ⟨_, _, _, rfl⟩ | ⟨_, rfl⟩ := execRet_cases h
    · exact .inl rfl
    · exact .inr ⟨_, rfl⟩
  | call =>
    obtain ⟨_, rfl⟩ | ⟨_, rfl⟩ := execCall_cases h
    · exact .inl rfl
    · exact .inr ⟨_, rfl⟩
  | drw | ldB | ldMemRegs | ldRegsMem =>
    obtain ⟨_, rfl⟩ | ⟨_, rfl⟩ := ifInBounds_cases h
    · exact .inl rfl
    · exact .inr ⟨_, rfl⟩
  | ldVxK => obtain ⟨_, rfl⟩ | ⟨_, rfl⟩ := execLdVxK_cases h <;> exact .inl rfl
  | seImm | sneImm | seReg | sneReg | skp | sknp => cases h; exact .inl (by rw [skipIf_eq_setPc, setPc_halted])
  | _ => cases h; exact .inl rfl

/-- A Step that halts writes `halted` and, where the fetch succeeded, moves pc past the instruction (R304). -/
theorem stepInstr_of_halts {s t : State} {r : HaltReason} (h : stepInstr s = .next t) (hs : s.halted = none)
    (ht : t.halted = some r) :
    t = { s with pc := if s.pc.toNat + 1 ≤ 0xFFF then s.pc + 2#16 else s.pc, halted := some r } := by
  rcases stepInstr_cases s with ⟨_, hh, _⟩ | ⟨_, hp, he⟩ | ⟨_, hp, i, _, he⟩ | ⟨_, hp, w, _, he⟩
  · cases hs.symm.trans hh
  · cases he.symm.trans h
    cases ht
    rw [if_neg (Nat.not_le.mpr hp)]
  · rw [if_pos hp]
    obtain hsame | ⟨r', rfl⟩ := exec_halted_cases (he.symm.trans h)
    · cases ht.symm.trans (hsame.trans hs)
    · cases ht
      rfl
  · cases he.symm.trans h
    cases ht
    rw [if_pos hp]
    rfl

/-- Settles O15: of the host's operations only Step can write `halted`. -/
theorem haltsArePrecise : Obligations.HaltsArePrecise := by
  intro s t r h hs ht
  obtain ⟨_, h⟩ | ⟨_, rfl⟩ | ⟨_, _, _, rfl⟩ | ⟨_, _, _, rfl⟩ | ⟨_, rfl⟩ := step_cases h
  · obtain rfl := stepInstr_of_halts h hs ht
    rfl
  all_goals cases hs.symm.trans ht

/-! Runs on which every Step leaves the state as it is (R127, R305). -/

/-- The two states differ at most in DT, ST, K and the schedule: what the host's calls other than Step change. -/
def EqUpToHostCalls (s t : State) : Prop :=
  ∃ d e k c, t = { s with dt := d, st := e, keys := k, schedule := c }

/-- Where Step changes nothing, whatever DT, ST, K and the schedule hold, a run changes only those (R120). -/
theorem eqUpToHostCalls_of_reaches {s t : State} (hfix : ∀ u, EqUpToHostCalls s u → stepInstr u = .next u)
    (h : Reaches s t) : EqUpToHostCalls s t := by
  induction h with
  | here => exact ⟨_, _, _, _, rfl⟩
  | more _ hstep ih =>
    obtain ⟨d, e, k, c, rfl⟩ := ih
    obtain ⟨_, hstep⟩ | ⟨_, rfl⟩ | ⟨_, _, _, rfl⟩ | ⟨_, _, _, rfl⟩ | ⟨_, rfl⟩ := step_cases hstep
    · cases (hfix _ ⟨d, e, k, _, rfl⟩).symm.trans hstep
      exact ⟨d, e, k, _, rfl⟩
    all_goals exact ⟨_, _, _, _, rfl⟩

/-- A jump to itself changes nothing (R127, R143). -/
theorem stepInstr_of_ended {s : State} (h : s.Ended) : stepInstr s = .next s := by
  obtain ⟨hh, hp, hw⟩ := h
  have hnum : (s.pc.setWidth 12).toNat = s.pc.toNat := by
    rw [BitVec.toNat_setWidth]
    omega
  have htarget : addrOperand (s.pc.setWidth 12) = s.pc :=
    BitVec.eq_of_toNat_eq ((addrOperand_toNat _).trans hnum)
  have hjp : decodeWord (fetchWord s) = .instr (.jp (s.pc.setWidth 12)) := by
    rw [hw, ← hnum]
    exact (hasWord_address 0x1 rfl rfl).1
  calc stepInstr s = .next (s.advancePc.setPc (addrOperand (s.pc.setWidth 12))) := by
        rw [stepInstr_of_in hh hp, hjp]; rfl
    _ = .next s := by rw [htarget]; rfl

/-- Settles O17: the end of a run depends on nothing that the host's other calls change. -/
theorem endedStateIsLeftUnchanged : Obligations.EndedStateIsLeftUnchanged := by
  intro s hs
  have hrun : ∀ t, Reaches s t → EqUpToHostCalls s t := fun t =>
    eqUpToHostCalls_of_reaches fun u hu => by
      obtain ⟨d, e, k, c, rfl⟩ := hu
      exact stepInstr_of_ended hs
  refine ⟨fun hc => ?_, fun t ht => ?_, fun t ht => ?_⟩
  · rw [step_of_hostCalls hc]
    exact stepInstr_of_ended (s := s.hostTurn) hs
  · obtain ⟨_, _, _, _, rfl⟩ := hrun t ht
    obtain ⟨hh, -, -⟩ := hs
    exact hh
  · obtain ⟨_, _, _, _, rfl⟩ := hrun t ht
    rfl

/-! Every order of the host's calls is a run (R120). -/

theorem stepInstr_schedule {s t : State} (h : stepInstr s = .next t) : t.schedule = s.schedule := by
  rcases stepInstr_cases s with ⟨_, _, he⟩ | ⟨_, _, he⟩ | ⟨_, _, i, _, he⟩ | ⟨_, _, w, _, he⟩
  · cases he.symm.trans h; rfl
  · cases he.symm.trans h; rfl
  · exact (exec_changesOnly (he.symm.trans h)).schedule
  · cases he.symm.trans h; rfl

/-- A step uses up one call of the schedule (log 2). -/
theorem step_schedule {s t : State} (h : step s = .next t) : t.schedule = scheduleRest s.schedule := by
  obtain ⟨_, h⟩ | ⟨_, rfl⟩ | ⟨_, _, _, rfl⟩ | ⟨_, _, _, rfl⟩ | ⟨_, rfl⟩ := step_cases h
  · exact stepInstr_schedule h
  all_goals rfl

/-- A step performs an offered call and goes on to the next (R120). -/
theorem exists_step_of_offered {s : State} (h : (nextHostOp s.schedule).Offered) :
    ∃ t, step s = .next t ∧ t.schedule = scheduleRest s.schedule := by
  obtain ⟨t, ht⟩ := everyStepAnswers s h
  exact ⟨t, ht, step_schedule ht⟩

/-- Listed calls are performed one by one. -/
theorem exists_runsTo_of_listed {ops : List HostOp} {after : Schedule} (hops : ∀ op ∈ ops, op.Offered) {s : State}
    (hs : s.schedule = ops.foldr .first after) : ∃ t, s.RunsTo ops.length t ∧ t.schedule = after := by
  induction ops generalizing s with
  | nil => exact ⟨s, rfl, hs⟩
  | cons op ops ih =>
    obtain ⟨hop, hops⟩ := List.forall_mem_cons.mp hops
    obtain ⟨u, hu, hsched⟩ := exists_step_of_offered (s := s) (by rw [hs]; exact hop)
    obtain ⟨t, ht, hafter⟩ := ih hops (s := u) (by rw [hsched, hs]; rfl)
    exact ⟨t, ⟨u, hu, ht⟩, hafter⟩

/-- A free host's calls are performed one by one. -/
theorem exists_runsTo_of_free {s : State} {n : Nat} (k : Nat) (hs : s.schedule = .free n) :
    ∃ t, s.RunsTo k t ∧ t.schedule = .free (n + k) := by
  induction k generalizing s n with
  | zero => exact ⟨s, rfl, hs⟩
  | succ k ih =>
    obtain ⟨u, hu, hsched⟩ := exists_step_of_offered (s := s) (by rw [hs]; exact offered_hostChoiceOp _)
    obtain ⟨t, ht, hfree⟩ := ih (s := u) (n := n + 1) (by rw [hsched, hs]; rfl)
    exact ⟨t, ⟨u, hu, ht⟩, by rw [hfree, Nat.add_assoc, Nat.add_comm 1 k]⟩

/-- Settles O60: by induction on the listed calls, and on the number of free ones. -/
theorem everyInterleavingIsARun : Obligations.EveryInterleavingIsARun := by
  refine ⟨fun s ops after hops hs => exists_runsTo_of_listed hops hs, fun s n k hs => ?_⟩
  obtain ⟨t, ht, hfree⟩ := exists_runsTo_of_free k hs
  exact ⟨t, ht, hfree, congrArg nextHostOp hfree⟩

end Sys2Proof.Machine

/-! PROOFS. Control flow (41_control_flow.md R141 to R149): the jumps and skips write pc alone, CALL and RET pc and the
call stack, and SYS halts. -/

namespace Sys2Proof.Machine

/-- What changed only as listed, with no store and no halt, is framed. -/
theorem ChangesOnly.frame {w : Writes} {s t : State} (h : ChangesOnly w s t) (hw : w.stores = [])
    (hh : t.halted = s.halted) : Frame w s t :=
  ⟨h.regs, fun a _ => congrArg (·.read a) (h.mem hw), h.index, h.stack, h.dt, h.st, h.fb, h.draws, h.keys, hh,
    h.params, h.schedule⟩

/-- An instruction that stores nothing and does not halt is framed by what the table lists for its form (R39). -/
theorem exec_frame {i : Instr} {s t : State} (h : exec i s = .next t) (hw : (writesOf s i).stores = [])
    (hh : t.halted = s.halted) : Frame (writesOf s i) s t :=
  (exec_changesOnly h).frame hw hh

/-! SYS and the jumps. -/

/-- The word of SYS is its address, also for the two addresses that decode to CLS and RET. -/
theorem encode_sys (nnn : Addr12) : encode (.sys nnn) = BitVec.ofNat 16 nnn.toNat := by
  have := nnn.isLt
  apply BitVec.eq_of_toNat_eq
  simp only [encode, encodeNibbles, packNibbles_toNat, nibblesA, BitVec.toNat_ofNat, Fin.val_zero]
  omega

/-- Settles O26: the word the halt records is the address. -/
theorem sysHaltsUnsupported : Obligations.SysHaltsUnsupported := by
  intro nnn s
  rw [← encode_sys]
  rfl

/-- Settles O28: zero extension keeps the address. -/
theorem jpSetsPc : Obligations.JpSetsPc :=
  fun nnn _ => ⟨_, rfl, addrOperand_toNat nnn, exec_frame (i := .jp nnn) rfl rfl rfl⟩

/-- Settles O33: the sum fits in 16 bits. -/
theorem jpV0AddsV0ToTheAddress : Obligations.JpV0AddsV0ToTheAddress :=
  fun nnn s => ⟨_, rfl, offsetTarget_toNat nnn s, exec_frame (i := .jpV0 nnn) rfl rfl rfl⟩

/-! The skips. -/

/-- A skip changes nothing but pc (R140). -/
theorem skipIf_frame (s : State) (c : Bool) : Frame {} s (s.skipIf c) :=
  (ChangesOnly.skipIf {} s c).frame rfl (by rw [skipIf_eq_setPc, setPc_halted])

theorem skipIf_beq_pc (s : State) (a b : Byte) :
    (s.skipIf (a == b)).pc = if a.toNat = b.toNat then s.pc + 2#16 else s.pc := by
  simp only [skipIf_pc, beq_iff_eq, BitVec.toNat_inj]

theorem skipIf_bne_pc (s : State) (a b : Byte) :
    (s.skipIf (a != b)).pc = if a.toNat = b.toNat then s.pc else s.pc + 2#16 := by
  simp only [skipIf_pc, bne_iff_ne, ne_eq, ite_not, BitVec.toNat_inj]

/-- Settles O31: SE and SNE are the skips on `==` and `!=`. -/
theorem immediateSkipsCompare : Obligations.ImmediateSkipsCompare :=
  fun _ _ s => ⟨⟨_, rfl, skipIf_frame s _, skipIf_beq_pc s _ _⟩, _, rfl, skipIf_frame s _, skipIf_bne_pc s _ _⟩

/-- Settles O32: the same skips with V[Y] as the second value. -/
theorem registerSkipsCompare : Obligations.RegisterSkipsCompare :=
  fun _ _ s => ⟨⟨_, rfl, skipIf_frame s _, skipIf_beq_pc s _ _⟩, _, rfl, skipIf_frame s _, skipIf_bne_pc s _ _⟩

/-! CALL and RET. -/

/-- Settles O27: the two equations of RET. -/
theorem retPopsThePc : Obligations.RetPopsThePc := by
  refine fun s => ⟨fun a rest hs => ?_, execRet_of_nil⟩
  have hret : exec .ret s = .next (({ s with stack := rest } : State).setPc a) := execRet_of_cons hs
  exact ⟨_, hret, rfl, rfl, exec_frame hret rfl rfl⟩

/-- Settles O29: the two equations of CALL. -/
theorem callPushesTheReturnAddress : Obligations.CallPushesTheReturnAddress := by
  refine fun nnn s => ⟨fun hroom => ?_, execCall_of_full nnn⟩
  have hcall : exec (.call nnn) s = .next (({ s with stack := s.pc :: s.stack } : State).setPc (addrOperand nnn)) :=
    execCall_of_room nnn (Nat.lt_succ_of_le hroom)
  exact ⟨_, hcall, addrOperand_toNat nnn, rfl, exec_frame hcall rfl rfl⟩

/-- A Step whose fetched word is an instruction's runs that instruction (R121). -/
theorem step_of_hasWord {s : State} {i : Instr} {k : Nat} (hi : HasWord i k) (hc : s.HostCalls .step)
    (hh : s.halted = none) (hp : s.pc.toNat + 1 ≤ 0xFFF) (hw : fetchWord s = BitVec.ofNat 16 k) :
    step s = exec i s.fetched := by
  obtain ⟨hd, -⟩ := hi
  rw [step_of_in hc hh hp, hw, hd]
  rfl

/-- Where the host calls Step for ever, the call used up leaves the schedule as it was (log 2). -/
theorem fetched_of_steps {s : State} (h : s.schedule = .steps) : s.fetched = s.advancePc := by
  rw [State.fetched, State.hostTurn, h, scheduleRest, ← h]
  rfl

/-- The state in which the routine at NNN begins after a Step of CALL NNN (R144). -/
def State.called (s : State) (nnn : Addr12) : State :=
  ({ s with stack := (s.pc + 2#16) :: s.stack } : State).setPc (addrOperand nnn)

theorem step_call {s : State} {nnn : Addr12} (hs : s.schedule = .steps) (hh : s.halted = none)
    (hp : s.pc.toNat + 1 ≤ 0xFFF) (hroom : s.stack.length ≤ 15)
    (hw : fetchWord s = BitVec.ofNat 16 (0x2000 + nnn.toNat)) : step s = .next (s.called nnn) := by
  rw [step_of_hasWord (hasWord_address 0x2 (i := .call nnn) rfl rfl) (congrArg nextHostOp hs) hh hp hw,
    fetched_of_steps hs]
  exact execCall_of_room (s := s.advancePc) nnn (Nat.lt_succ_of_le hroom)

theorem step_ret {s : State} {a : Word} {rest : List Word} (hs : s.schedule = .steps) (hh : s.halted = none)
    (hp : s.pc.toNat + 1 ≤ 0xFFF) (hstack : s.stack = a :: rest) (hw : fetchWord s = 0x00EE#16) :
    step s = .next (({ s with stack := rest } : State).setPc a) := by
  rw [step_of_hasWord (i := .ret) (hasWord_of_toNat rfl rfl) (congrArg nextHostOp hs) hh hp hw, fetched_of_steps hs]
  exact execRet_of_cons (s := s.advancePc) hstack

/-- The first word of the routine is that of the bytes at NNN (R62). -/
theorem fetchWord_called (s : State) (nnn : Addr12) :
    fetchWord (s.called nnn) = wordOfBytes (s.mem.read nnn.toNat) (s.mem.read (nnn.toNat + 1)) := by
  rw [fetchWord_def, State.called, setPc_pc, addrOperand_toNat, setPc_mem]

/-- Settles O30: the RET pops what the CALL pushed, and the CALL wrote nothing else. -/
theorem callThenReturnResumes : Obligations.CallThenReturnResumes := by
  intro s nnn hs hh hp hroom hcall hpc hhi hlo
  have htarget : (s.called nnn).pc.toNat = nnn.toNat := addrOperand_toNat nnn
  have hret : fetchWord (s.called nnn) = 0x00EE#16 := by
    rw [fetchWord_called, hhi, hlo]
    rfl
  exact ⟨s.called nnn, _, step_call hs hh hp hroom hcall, htarget, rfl,
    step_ret hs hh (htarget ▸ hpc) rfl hret, rfl⟩

end Sys2Proof.Machine


/-! PROOFS. Register arithmetic (42_alu.md R174 to R185): V[X] as a number or bit by bit, the flag operations' VF, and
that nothing else is written. -/

namespace Sys2Proof.Machine

/-- A register write changes nothing but that register. -/
theorem setV_frame (s : State) (x : Reg) (b : Byte) : Frame { regs := [x] } s (s.setV x b) :=
  (ChangesOnly.setV s b (List.mem_singleton_self x)).frame rfl rfl

/-! The forms that write no flag. -/

/-- Settles O34: one register write. -/
theorem ldImmLoadsTheByte : Obligations.LdImmLoadsTheByte :=
  fun x nn s => ⟨_, rfl, getV_setV_self s x nn, rfl, setV_frame s x nn⟩

/-- Settles O35: addition of bytes is modulo 256. -/
theorem addImmWraps : Obligations.AddImmWraps := by
  refine fun x nn s => ⟨_, rfl, ?_, rfl, setV_frame s x _⟩
  rw [getV_setV_self, BitVec.toNat_add]

/-- Settles O36: one register write. -/
theorem ldRegCopies : Obligations.LdRegCopies :=
  fun x y s => ⟨_, rfl, getV_setV_self s x (s.getV y), rfl, setV_frame s x _⟩

/-- Settles O37: the bits of the bitwise operations on bytes. -/
theorem logicWorksBitByBit : Obligations.LogicWorksBitByBit := by
  refine fun x y s => ⟨⟨_, rfl, rfl, setV_frame s x _, fun k _ => ?or⟩,
    ⟨_, rfl, rfl, setV_frame s x _, fun k _ => ?and⟩, ⟨_, rfl, rfl, setV_frame s x _, fun k _ => ?xor⟩⟩
  case or => rw [getV_setV_self, BitVec.getLsbD_or]
  case and => rw [getV_setV_self, BitVec.getLsbD_and]
  case xor => rw [getV_setV_self, BitVec.getLsbD_xor]

/-- Settles O43: a bitwise AND with NN has the bits of both and is at most NN, whatever byte was drawn. -/
theorem rndMasksAFreeByte : Obligations.RndMasksAFreeByte := by
  refine fun x nn s => ⟨_, rfl, fun k _ => ?bits, ?bound, rfl, rfl, exec_frame (i := .rnd x nn) rfl rfl rfl⟩
  case bits =>
    rw [getV_setV_self]
    exact BitVec.getLsbD_and
  case bound =>
    rw [getV_setV_self, BitVec.toNat_and]
    exact Nat.and_le_right

/-! The flag operations: V[X] and then VF (R22, R171). -/

/-- The writes of a flag operation change nothing but V[X] and VF. -/
theorem writeResultThenFlag_frame (s : State) (x : Reg) (b f : Byte) :
    Frame { regs := [x, Reg.vF] } s (writeResultThenFlag x b f s) :=
  (ChangesOnly.writeResultThenFlag s b f (List.mem_cons_self ..) (by simp)).frame rfl rfl

/-- Settles O38: the sum modulo 256 and the carry. -/
theorem addRegCarriesIntoVF : Obligations.AddRegCarriesIntoVF := by
  refine fun x y s => ⟨_, rfl, fun hx => ?result, ?flag, rfl, writeResultThenFlag_frame s x _ _⟩
  case result => rw [writeResultThenFlag_result _ _ _ _ hx, BitVec.toNat_add]
  case flag => rw [writeResultThenFlag_flag, carryFlag, flagByte_toNat]

/-- A difference of bytes as a number (R170). -/
theorem byte_sub_toNat (m d : Byte) : (m - d).toNat = (256 + m.toNat - d.toNat) % 256 := by
  have := d.isLt
  rw [BitVec.toNat_sub]
  omega

section SubFlag

variable {p : Config.Params} (m d : Byte)

theorem subFlag_of_ge (h : p.subFlag = .ge) : (subFlag p m d).toNat = if m.toNat ≥ d.toNat then 1 else 0 := by
  rw [subFlag, h]
  exact flagByte_toNat _

theorem subFlag_of_gt (h : p.subFlag = .gt) : (subFlag p m d).toNat = if m.toNat > d.toNat then 1 else 0 := by
  rw [subFlag, h]
  exact flagByte_toNat _

theorem subFlag_of_borrow (h : p.subFlag = .borrow) : (subFlag p m d).toNat = if m.toNat < d.toNat then 1 else 0 := by
  rw [subFlag, h]
  exact flagByte_toNat _

end SubFlag

/-- The state after a subtraction m - d into V[X]. SUB and SUBN are this with the operands one way and the other
(`exec_sub`, `exec_subn`). -/
def State.subtracted (s : State) (x : Reg) (m d : Byte) : State :=
  writeResultThenFlag x (m - d) (subFlag s.params m d) s

theorem exec_sub (x y : Reg) (s : State) : exec (.sub x y) s = .next (s.subtracted x (s.getV x) (s.getV y)) := rfl

theorem exec_subn (x y : Reg) (s : State) : exec (.subn x y) s = .next (s.subtracted x (s.getV y) (s.getV x)) := rfl

/-- What a subtraction leaves in V[X] and, for each SUB_FLAG, in VF, with no other write (R171, R172). -/
theorem subtracted_spec (s : State) (x : Reg) (m d : Byte) :
    (x ≠ Reg.vF → ((s.subtracted x m d).getV x).toNat = (256 + m.toNat - d.toNat) % 256) ∧
    (s.params.subFlag = .ge → ((s.subtracted x m d).getV Reg.vF).toNat = if m.toNat ≥ d.toNat then 1 else 0) ∧
    (s.params.subFlag = .gt → ((s.subtracted x m d).getV Reg.vF).toNat = if m.toNat > d.toNat then 1 else 0) ∧
    (s.params.subFlag = .borrow → ((s.subtracted x m d).getV Reg.vF).toNat = if m.toNat < d.toNat then 1 else 0) ∧
    (s.subtracted x m d).pc = s.pc ∧ Frame { regs := [x, Reg.vF] } s (s.subtracted x m d) := by
  rw [State.subtracted, writeResultThenFlag_flag]
  refine ⟨fun hx => ?result, subFlag_of_ge m d, subFlag_of_gt m d, subFlag_of_borrow m d, rfl,
    writeResultThenFlag_frame s x _ _⟩
  case result => rw [writeResultThenFlag_result _ _ _ _ hx, byte_sub_toNat]

/-- Settles O39: the subtraction V[X] - V[Y]. -/
theorem subSubtractsAndFlags : Obligations.SubSubtractsAndFlags :=
  fun x y s => ⟨_, exec_sub x y s, subtracted_spec s x (s.getV x) (s.getV y)⟩

/-- Settles O40: the subtraction V[Y] - V[X]. -/
theorem subnSubtractsReversedAndFlags : Obligations.SubnSubtractsReversedAndFlags :=
  fun x y s => ⟨_, exec_subn x y s, subtracted_spec s x (s.getV y) (s.getV x)⟩

/-! The shifts. -/

/-- The register SHIFT_SRC selects (R173). -/
theorem shiftSource_eq_ite (p : Config.Params) (x y : Reg) :
    shiftSource p x y = if p.shiftSrc = .x then x else y := by
  rw [shiftSource]
  cases p.shiftSrc <;> rfl

/-- A bit of a byte as the flag a shift leaves. -/
theorem flagByte_getLsbD_toNat (b : Byte) (k : Nat) : (flagByte (b.getLsbD k)).toNat = b.toNat / 2 ^ k % 2 := by
  rw [BitVec.getLsbD, Nat.testBit_eq_decide_div_mod_eq, flagByte_toNat]
  split <;> omega

theorem shrFlag_toNat (b : Byte) : (shrFlag b).toNat = b.toNat % 2 := by
  rw [shrFlag, flagByte_getLsbD_toNat, pow_zero, Nat.div_one]

/-- Bit 7 is the top bit, so no remainder is left to take. -/
theorem shlFlag_toNat (b : Byte) : (shlFlag b).toNat = b.toNat / 128 := by
  have := b.isLt
  rw [shlFlag, flagByte_getLsbD_toNat]
  omega

/-- Settles O41: a right shift by one halves and leaves the remainder. -/
theorem shrHalvesAndFlags : Obligations.ShrHalvesAndFlags := by
  intro x y s
  rw [← shiftSource_eq_ite]
  refine ⟨_, rfl, fun hx => ?result, ?flag, rfl, writeResultThenFlag_frame s x _ _⟩
  case result => rw [writeResultThenFlag_result _ _ _ _ hx, BitVec.toNat_ushiftRight, Nat.shiftRight_one]
  case flag => rw [writeResultThenFlag_flag, shrFlag_toNat]

/-- Settles O42: a left shift by one doubles modulo 256 and drops bit 7. -/
theorem shlDoublesAndFlags : Obligations.ShlDoublesAndFlags := by
  intro x y s
  rw [← shiftSource_eq_ite]
  refine ⟨_, rfl, fun hx => ?result, ?flag, rfl, writeResultThenFlag_frame s x _ _⟩
  case result =>
    rw [writeResultThenFlag_result _ _ _ _ hx, BitVec.toNat_shiftLeft, Nat.shiftLeft_eq, pow_one, Nat.mul_comm]
  case flag => rw [writeResultThenFlag_flag, shlFlag_toNat]

end Sys2Proof.Machine

/-! PROOFS. Index register and memory (43_index_memory.md R211 to R216): the forms that write I alone, and the block
operations, which make all their writes or halt and make none (20_memory.md R65). -/

namespace Sys2Proof.Machine

/-! The forms that write I and nothing else. -/

/-- A write of I changes nothing but I. -/
theorem setI_frame (s : State) (a : Word) : Frame { index := true } s (s.setI a) :=
  (ChangesOnly.setI s a rfl).frame rfl rfl

/-- Settles O44: zero extension keeps the address. -/
theorem ldISetsTheIndex : Obligations.LdISetsTheIndex :=
  fun nnn s => ⟨_, rfl, addrOperand_toNat nnn, rfl, setI_frame s _⟩

/-- Settles O45: addition of words is modulo 65536. -/
theorem addIWrapsAt65536 : Obligations.AddIWrapsAt65536 := by
  refine fun x s => ⟨_, rfl, ?_, rfl, setI_frame s _⟩
  rw [setI_i, BitVec.toNat_add, wide_toNat]

/-- Settles O46: five times a byte fits in 16 bits. -/
theorem ldFPointsAtTheGlyph : Obligations.LdFPointsAtTheGlyph :=
  fun x s => ⟨_, rfl, glyphAddr_toNat (s.getV x), rfl, setI_frame s _⟩

/-! An access to the bytes I to I + k, which the bounds check lets through or halts (R64, R210). -/

theorem ifInBounds_effAddr_of_in {s : State} {k : Nat} (w : State) (h : s.i.toNat + k ≤ 0xFFF) :
    ifInBounds (effAddr s 0) (k + 1) s w = .next w := by
  refine ifInBounds_of_in s w (.inr ?_)
  rw [effAddr_zero]
  omega

theorem ifInBounds_effAddr_of_out {s : State} {k : Nat} (w : State) (h : s.i.toNat + k > 0xFFF) :
    ifInBounds (effAddr s 0) (k + 1) s w =
      .next { s with halted := some (.memoryOutOfBounds (max s.i.toNat 0x1000)) } := by
  refine ifInBounds_of_out s w ?_
  rw [effAddr_zero]
  omega

/-! What a block write leaves alone, as a frame. -/

theorem mem_addressRange {a base count : Nat} : a ∈ addressRange base count ↔ base ≤ a ∧ a < base + count := by
  simp only [addressRange, List.mem_map, List.mem_range]
  constructor
  · rintro ⟨k, hk, rfl⟩
    omega
  · rintro ⟨hlo, hhi⟩
    exact ⟨a - base, by omega, by omega⟩

theorem Memory.read_writeBlock_of_notMem {m : Memory} {base a : Nat} {bs : List Byte} (hm : m.wf = true)
    (hfit : base + bs.length ≤ 4096) (ha : a ∉ addressRange base bs.length) :
    (m.writeBlock base bs).read a = m.read a := by
  rw [mem_addressRange] at ha
  exact Memory.read_writeBlock_outside hm hfit (by omega)

/-- An instruction whose stores are one block, and that does not halt, is framed by what the table lists for its form
(R39). -/
theorem exec_frame_of_writeBlock {i : Instr} {s t : State} {base : Nat} {bs : List Byte} (h : exec i s = .next t)
    (hw : (writesOf s i).stores = addressRange base bs.length) (hm : s.mem.wf = true)
    (hfit : base + bs.length ≤ 4096) (ht : t.mem = s.mem.writeBlock base bs) (hh : t.halted = s.halted) :
    Frame (writesOf s i) s t := by
  have hc := exec_changesOnly h
  refine ⟨hc.regs, fun a ha => ?_, hc.index, hc.stack, hc.dt, hc.st, hc.fb, hc.draws, hc.keys, hh, hc.params,
    hc.schedule⟩
  rw [ht]
  exact Memory.read_writeBlock_of_notMem hm hfit (hw ▸ ha)

/-! LD B. -/

/-- LD B, Vx where the three bytes lie in memory (R214). -/
theorem execLdB_of_in {x : Reg} {s : State} (h : s.i.toNat + 2 ≤ 0xFFF) :
    execLdB x s = .next { s with mem := s.mem.writeBlock (effAddr s 0) (bcdDigits (s.getV x)) } :=
  ifInBounds_effAddr_of_in _ h

/-- A number no greater than a byte is that number as a byte. -/
theorem ofNat_toNat_of_le {n : Nat} {b : Byte} (h : n ≤ b.toNat) : (BitVec.ofNat 8 n).toNat = n :=
  (BitVec.toNat_ofNat n 8).trans (Nat.mod_eq_of_lt (Nat.lt_of_le_of_lt h b.isLt))

/-- Settles O47: three bytes from I on, each a digit and so no greater than V[X]. -/
theorem ldBStoresTheDigits : Obligations.LdBStoresTheDigits := by
  refine fun x s hm => ⟨fun hb => ?_, ifInBounds_effAddr_of_out _⟩
  have hfit : effAddr s 0 + (bcdDigits (s.getV x)).length ≤ 4096 := Nat.add_le_add_right hb 1
  have hread {k : Nat} (hk : k < 3) :
      ((s.mem.writeBlock (effAddr s 0) (bcdDigits (s.getV x))).read (effAddr s k)).toNat =
        (bcdDigits (s.getV x))[k].toNat :=
    congrArg BitVec.toNat (Memory.read_writeBlock_inside hm hfit hk)
  refine ⟨_, execLdB_of_in hb, (hread (by decide : 0 < 3)).trans ?hundreds, (hread (by decide : 1 < 3)).trans ?tens,
    (hread (by decide : 2 < 3)).trans ?ones, rfl,
    exec_frame_of_writeBlock (i := .ldB x) (execLdB_of_in hb) rfl hm hfit rfl rfl⟩
  case hundreds => exact ofNat_toNat_of_le (Nat.div_le_self ..)
  case tens => exact ofNat_toNat_of_le ((Nat.mod_le ..).trans (Nat.div_le_self ..))
  case ones => exact ofNat_toNat_of_le (Nat.mod_le ..)

/-! The block operations. -/

/-- LD Vx, [I] where the block lies in memory (R216). -/
theorem execLdRegsMem_of_in {x : Reg} {s : State} (h : s.i.toNat + x.val ≤ 0xFFF) :
    execLdRegsMem x s = .next { s with v := blockLoaded s x, i := blockNextI s x } :=
  ifInBounds_effAddr_of_in _ h

/-- A loaded register holds its byte of the block (R216). -/
theorem blockLoaded_getElem_of_le (s : State) {x k : Reg} (hk : k ≤ x) :
    (blockLoaded s x)[k.val] = s.mem.read (effAddr s k.val) :=
  (blockLoaded_getElem s x k).trans (if_pos hk)

/-- Settles O48: the block's k-th byte is V[k]. -/
theorem ldMemRegsStoresTheBlock : Obligations.LdMemRegsStoresTheBlock := by
  refine fun x s hm => ⟨fun hb => ?_, ifInBounds_effAddr_of_out _⟩
  have hfit : effAddr s 0 + (blockBytes s x).length ≤ 4096 := by
    rw [effAddr_zero, blockBytes_length]
    omega
  have hstores : (writesOf s (.ldMemRegs x)).stores = addressRange (effAddr s 0) (blockBytes s x).length := by
    rw [blockBytes_length]
    rfl
  exact ⟨_, execLdMemRegs_of_in hb, fun k hk => read_writeBlock_blockBytes hm hb hk, blockNextI_toNat s x, rfl,
    exec_frame_of_writeBlock (i := .ldMemRegs x) (execLdMemRegs_of_in hb) hstores hm hfit rfl rfl⟩

/-- Settles O49: the loaded registers are the bytes of the block, and memory is kept as it is. -/
theorem ldRegsMemLoadsTheBlock : Obligations.LdRegsMemLoadsTheBlock :=
  fun x s => ⟨fun hb => ⟨_, execLdRegsMem_of_in hb, fun _ hk => blockLoaded_getElem_of_le s hk, blockNextI_toNat s x,
    rfl, exec_frame (i := .ldRegsMem x) (execLdRegsMem_of_in hb) rfl rfl⟩, ifInBounds_effAddr_of_out _⟩

/-- Settles O50: the load reads the addresses the store wrote, since I is the same before both. -/
theorem storeThenLoadGivesTheRegistersBack : Obligations.StoreThenLoadGivesTheRegistersBack := by
  intro x s t u hm hb hstore humem hui
  obtain rfl := Host.Outcome.next.inj ((execLdMemRegs_of_in hb).symm.trans hstore)
  have haddr (k : Nat) : effAddr u k = effAddr s k := congrArg (·.toNat + k) hui
  refine ⟨_, execLdRegsMem_of_in (hui ▸ hb), fun k hk => ?registers, blockNextI_toNat s x,
    congrArg (· + BitVec.ofNat 16 (blockCount x)) hui⟩
  case registers =>
    calc (blockLoaded u x)[k.val]
      _ = u.mem.read (effAddr u k.val) := blockLoaded_getElem_of_le u hk
      _ = (s.mem.writeBlock (effAddr s 0) (blockBytes s x)).read (effAddr s k.val) := by rw [humem, haddr]
      _ = s.getV k := read_writeBlock_blockBytes hm hb hk

end Sys2Proof.Machine

/-! PROOFS. The display (44_display.md R242 to R244): CLS, and DRW as the toggling of the cells its sprite covers. -/

namespace Sys2Proof.Machine

/-- Settles O52: the cleared framebuffer is the only write. -/
theorem clsTurnsEveryCellOff : Obligations.ClsTurnsEveryCellOff :=
  fun _ => ⟨_, rfl, fbGet_fbClear, rfl, exec_frame (i := .cls) rfl rfl rfl⟩

/-! What the sprite of a DRW does to a framebuffer. -/

/-- The framebuffer and the collision that DRW Vx, Vy, N makes of `fb` with the sprite and the origin of state `s`. -/
def State.drawnOver (s : State) (x y : Reg) (n : Nibble) (fb : Framebuffer) : Framebuffer × Bool :=
  drawSprite s.mem (effAddr s 0) (s.getV x).toNat (s.getV y).toNat n.val fb

/-- A sprite has at most 15 rows, so none of them wraps onto another. -/
theorem nibble_val_le_32 (n : Nibble) : n.val ≤ 32 := by omega

section Sprite

variable {s : State} {x y : Reg} {n : Nibble} {cx : Fin 64} {cy : Fin 32}

/-- The cells the draw passes over are those the sprite has a 1 bit over. -/
theorem mem_spriteCells_iff_spriteCovers :
    (cx, cy) ∈ spriteCells s.mem (effAddr s 0) (s.getV x).toNat (s.getV y).toNat n.val ↔ SpriteCovers s x y n cx cy := by
  simp only [mem_spriteCells, SpriteCovers, SpriteHasBit, spriteBit, effAddr, wrapX, wrapY, Fin.ext_iff, Nat.add_zero,
    and_assoc]

theorem drawnOver_get_of_covers (h : SpriteCovers s x y n cx cy) (fb : Framebuffer) :
    fbGet (s.drawnOver x y n fb).1 cx cy = !fbGet fb cx cy := by
  rw [State.drawnOver, drawSprite_get _ _ _ _ (nibble_val_le_32 n),
    decide_eq_true (mem_spriteCells_iff_spriteCovers.mpr h), Bool.xor_true]

theorem drawnOver_get_of_not_covers (h : ¬ SpriteCovers s x y n cx cy) (fb : Framebuffer) :
    fbGet (s.drawnOver x y n fb).1 cx cy = fbGet fb cx cy := by
  rw [State.drawnOver, drawSprite_get _ _ _ _ (nibble_val_le_32 n),
    decide_eq_false (mt mem_spriteCells_iff_spriteCovers.mp h), Bool.xor_false]

/-- A draw collides where it covers a lit cell (R243). -/
theorem drawnOver_collides_iff (fb : Framebuffer) :
    (s.drawnOver x y n fb).2 = true ↔ ∃ cx cy, SpriteCovers s x y n cx cy ∧ fbGet fb cx cy = true := by
  rw [State.drawnOver, drawSprite_collision _ _ _ _ (nibble_val_le_32 n)]
  simp only [Prod.exists, mem_spriteCells_iff_spriteCovers]

/-- Toggled twice, a cell is as it was (R244). -/
theorem drawnOver_twice (fb : Framebuffer) : (s.drawnOver x y n (s.drawnOver x y n fb).1).1 = fb := by
  refine fb_ext fun cx cy => ?_
  by_cases h : SpriteCovers s x y n cx cy
  · rw [drawnOver_get_of_covers h, drawnOver_get_of_covers h, Bool.not_not]
  · rw [drawnOver_get_of_not_covers h, drawnOver_get_of_not_covers h]

/-- The second draw collides where the first one lit a cell (R243; log 23). -/
theorem drawnOver_twice_collides_iff (fb : Framebuffer) :
    (s.drawnOver x y n (s.drawnOver x y n fb).1).2 = true ↔
      ∃ cx cy, SpriteCovers s x y n cx cy ∧ fbGet fb cx cy = false := by
  rw [drawnOver_collides_iff]
  refine exists_congr fun cx => exists_congr fun cy => and_congr_right fun h => ?_
  rw [drawnOver_get_of_covers h, Bool.not_eq_true']

end Sprite

/-- A draw reads nothing of the state but memory, I and the two registers of the origin. -/
theorem drawnOver_congr {s u : State} {x y : Reg} (n : Nibble) (fb : Framebuffer) (hm : u.mem = s.mem) (hi : u.i = s.i)
    (hx : u.getV x = s.getV x) (hy : u.getV y = s.getV y) : u.drawnOver x y n fb = s.drawnOver x y n fb := by
  rw [State.drawnOver, State.drawnOver, effAddr_zero, effAddr_zero, hm, hi, hx, hy]

/-! The instruction. -/

/-- The state after a draw that does not halt: FB drawn, then the collision in VF (R243). -/
def State.drawn (s : State) (x y : Reg) (n : Nibble) : State :=
  ({ s with fb := (s.drawnOver x y n s.fb).1 } : State).setV Reg.vF (collisionFlag (s.drawnOver x y n s.fb).2)

/-- DRW where the sprite's bytes lie in memory (R243). -/
theorem exec_drw_of_in {x y : Reg} {n : Nibble} {s : State} (h : n.val = 0 ∨ s.i.toNat + n.val - 1 ≤ 0xFFF) :
    exec (.drw x y n) s = .next (s.drawn x y n) := by
  refine ifInBounds_of_in s (s.drawn x y n) ?_
  rw [effAddr_zero]
  omega

/-- DRW where they do not (R64, R65). -/
theorem exec_drw_of_out {x y : Reg} {n : Nibble} {s : State} (h : n.val ≠ 0 ∧ s.i.toNat + n.val - 1 > 0xFFF) :
    exec (.drw x y n) s = .next { s with halted := some (.memoryOutOfBounds (max s.i.toNat 0x1000)) } := by
  refine ifInBounds_of_out s (s.drawn x y n) ?_
  rw [effAddr_zero]
  omega

theorem drawn_vF (s : State) (x y : Reg) (n : Nibble) :
    (s.drawn x y n).getV Reg.vF = collisionFlag (s.drawnOver x y n s.fb).2 := getV_setV_self ..

theorem collisionFlag_eq_one_iff (c : Bool) : collisionFlag c = 1 ↔ c = true := by
  cases c <;> decide

theorem collisionFlag_eq_zero_iff (c : Bool) : collisionFlag c = 0 ↔ ¬ c = true := by
  cases c <;> decide

/-- Settles O53: cell by cell, what the draw makes of FB, and the collision as VF. -/
theorem drwTogglesTheCoveredCells : Obligations.DrwTogglesTheCoveredCells := by
  refine fun x y n s => ⟨fun hb => ⟨s.drawn x y n, exec_drw_of_in hb, fun _ _ h => drawnOver_get_of_covers h s.fb,
    fun _ _ h => drawnOver_get_of_not_covers h s.fb, ?lit, ?unlit, rfl,
    exec_frame (i := .drw x y n) (exec_drw_of_in hb) rfl rfl⟩, exec_drw_of_out⟩
  case lit =>
    intro hlit
    rwa [drawn_vF, collisionFlag_eq_one_iff, drawnOver_collides_iff]
  case unlit =>
    intro hunlit
    rwa [drawn_vF, collisionFlag_eq_zero_iff, drawnOver_collides_iff]

/-- Settles O54: the second draw is that of the first state over the framebuffer the first draw left. -/
theorem drawingTwiceRestoresTheFramebuffer : Obligations.DrawingTwiceRestoresTheFramebuffer := by
  intro x y n s t u hb hdraw hfb hm hi hx hy
  obtain rfl := Host.Outcome.next.inj ((exec_drw_of_in hb).symm.trans hdraw)
  have hsecond : u.drawnOver x y n u.fb = s.drawnOver x y n (s.drawnOver x y n s.fb).1 :=
    hfb ▸ drawnOver_congr n _ hm hi hx hy
  refine ⟨u.drawn x y n, exec_drw_of_in (hi ▸ hb), ?fb, ?vF⟩
  case fb => exact (congrArg Prod.fst hsecond).trans (drawnOver_twice s.fb)
  case vF => rw [drawn_vF, collisionFlag_eq_one_iff, hsecond, drawnOver_twice_collides_iff]

/-- A machine with the one-row sprite 0x80 at 0x300, the origin at column 0 of row 0, and that cell lit. -/
def litUnderSprite : State :=
  { State.reset with i := 0x300, mem := [(0x300, 0x80)], fb := fbSet fbClear 0 0 true }

/-- The same machine with FB as the first draw leaves it. -/
def litUnderSpriteRedrawn : State := { litUnderSprite with fb := (litUnderSprite.drawn 0 0 1).fb }

/-- Refutes O55: the first draw turns the one covered cell off, so the second finds no lit cell and VF is 0 (log 23). -/
theorem not_secondDrawAlwaysCollides : ¬ Obligations.SecondDrawAlwaysCollides := by
  intro h
  have hbit : SpriteHasBit litUnderSprite 1 0 0 := ⟨by decide, by decide, by decide⟩
  have hone : (litUnderSpriteRedrawn.drawn 0 0 1).getV Reg.vF = 1 :=
    h 0 0 1 litUnderSprite _ litUnderSpriteRedrawn _ (by decide) ⟨0, 0, hbit⟩ (exec_drw_of_in (by decide)) rfl rfl rfl
      rfl rfl (exec_drw_of_in (by decide))
  have hzero : (litUnderSpriteRedrawn.drawn 0 0 1).getV Reg.vF = 0 := by decide
  exact absurd (hzero.symm.trans hone) (by decide)

end Sys2Proof.Machine

/-! PROOFS. Input and timers (45_input_timers.md R260 to R266): the key skips, the key wait and the timer moves. -/

namespace Sys2Proof.Machine

/-- The key an instruction tests is held where its bit of K is 1, the mask taken as a number (R260). -/
theorem keyHeld_iff (s : State) (x : Reg) :
    keyHeld s x = true ↔ s.keys.toNat / 2 ^ ((s.getV x).toNat % 16) % 2 = 1 := by
  rw [keyHeld, keyIndex, BitVec.getLsbD, Nat.testBit_eq_decide_div_mod_eq, decide_eq_true_iff]

theorem not_keyHeld_iff (s : State) (x : Reg) :
    (!keyHeld s x) = true ↔ s.keys.toNat / 2 ^ ((s.getV x).toNat % 16) % 2 = 0 := by
  rw [Bool.not_eq_true', ← Bool.not_eq_true, keyHeld_iff]
  exact Nat.mod_two_ne_one

/-- Settles O56: SKP and SKNP are the skips on the named key's bit and on its complement. -/
theorem keySkipsTestTheNamedKey : Obligations.KeySkipsTestTheNamedKey := by
  refine fun x s => ⟨⟨_, rfl, skipIf_frame s _, ?skp⟩, _, rfl, skipIf_frame s _, ?sknp⟩
  case skp => simp only [skipIf_pc, keyHeld_iff]
  case sknp => simp only [skipIf_pc, not_keyHeld_iff]

/-- The low byte of the mask (R263; D10). -/
theorem keyWaitValue_toNat (k : Word) : (keyWaitValue k).toNat = k.toNat % 256 := by
  rw [keyWaitValue, BitVec.toNat_setWidth]

/-- Settles O57: the two equations of LD Vx, K. -/
theorem keyWaitRetriesOrLoadsTheMask : Obligations.KeyWaitRetriesOrLoadsTheMask := by
  refine fun x s => ⟨fun hnone => ?retry, fun hheld => ?load⟩
  case retry => exact ⟨_, execLdVxK_of_none x hnone, rfl, (ChangesOnly.setPc {} s _).frame rfl rfl⟩
  case load =>
    refine ⟨_, execLdVxK_of_held x hheld, ?_, rfl, setV_frame s x _⟩
    rw [getV_setV_self, keyWaitValue_toNat]

/-- Settles O58: each form is one write, to V[X] or to a timer. -/
theorem timerMovesCopyAByte : Obligations.TimerMovesCopyAByte :=
  fun x s => ⟨⟨_, rfl, getV_setV_self s x s.dt, rfl, setV_frame s x _⟩,
    ⟨_, rfl, rfl, rfl, exec_frame (i := .ldDtVx x) rfl rfl rfl⟩,
    ⟨_, rfl, rfl, rfl, exec_frame (i := .ldStVx x) rfl rfl rfl⟩⟩

/-- The fetch and the key wait move pc by two and back. -/
theorem fetched_setPc_back (s : State) : s.fetched.setPc (s.fetched.pc - 2#16) = s.hostTurn := by
  have hpc : s.fetched.pc - 2#16 = s.pc := BitVec.add_sub_cancel s.pc 2#16
  rw [hpc]
  rfl

/-- Settles O59: the Step runs LD Vx, K, which takes back what the fetch did to pc. -/
theorem keyWaitStepMakesNoProgress : Obligations.KeyWaitStepMakesNoProgress := by
  intro s x hc hh hp hk hw
  calc step s
    _ = exec (.ldVxK x) s.fetched := step_of_hasWord (hasWord_register 0xF 0x0 0xA rfl rfl) hc hh hp hw
    _ = .next (s.fetched.setPc (s.fetched.pc - 2#16)) := execLdVxK_of_none (s := s.fetched) x hk
    _ = .next s.hostTurn := by rw [fetched_setPc_back]

end Sys2Proof.Machine

/-! PROOFS. Exceptions (60_exceptions.md R300 to R305, R320): which instructions halt, what a halted machine still does,
and Tick. -/

namespace Sys2Proof.Machine

/-! The halted machine (R305). -/

theorem stepResult_of_halted {s : State} {r : HaltReason} (h : s.halted = some r) : stepResult s = .halt r := by
  simp [stepResult, h]

/-- Settles O9: a Step leaves a halted state as it is, and its result is read off that state. -/
theorem stepOnHaltedMachineReportsTheHalt : Obligations.StepOnHaltedMachineReportsTheHalt := by
  intro s r hc hr
  refine ⟨?_, stepResult_of_halted (s := s.hostTurn) hr⟩
  rw [step_of_hostCalls hc]
  exact stepInstr_of_halted (s := s.hostTurn) hr

/-- Settles O10: Step changes nothing as long as `halted` keeps its reason, and no other call writes `halted`. -/
theorem haltedMachineKeepsItsState : Obligations.HaltedMachineKeepsItsState := by
  intro s t r hr hrun
  have hfix : ∀ u, EqUpToHostCalls s u → stepInstr u = .next u := fun u hu => by
    obtain ⟨d, e, k, c, rfl⟩ := hu
    exact stepInstr_of_halted hr
  obtain ⟨_, _, _, _, rfl⟩ := eqUpToHostCalls_of_reaches hfix hrun
  rfl

/-! Tick (R320). -/

theorem tick_frame (s : State) : Frame { dt := true, st := true } s (tick s) :=
  ((ChangesOnly.setDt s (countDown s.dt) rfl).trans (.setSt _ (countDown s.st) rfl)).frame rfl rfl

/-- Settles O11: each timer counts down on its own. -/
theorem tickCountsBothTimersDown : Obligations.TickCountsBothTimersDown :=
  fun s hc => ⟨tick s.hostTurn, step_of_hostCalls hc, countDown_toNat s.dt, countDown_toNat s.st, rfl,
    tick_frame s.hostTurn⟩

/-! Which instructions halt, and why (R300). -/

/-- A bounds-checked instruction that does not write `halted` itself halts only by its check (R64). -/
theorem ifInBounds_haltReason {base count : Nat} {s w t : State} {r : HaltReason}
    (h : ifInBounds base count s w = .next t) (hw : w.halted = none) (ht : t.halted = some r) : r = .memoryOutOfBounds (max base 0x1000) := by
  obtain ⟨_, rfl⟩ | ⟨_, rfl⟩ := ifInBounds_cases h
  · cases hw.symm.trans ht
  · exact (Option.some.inj ht).symm

/-- Settles O16: SYS always halts, RET, CALL and the four bounds-checked forms by their checks, and every other form
leaves `halted` alone. -/
theorem onlySevenInstructionsHalt : Obligations.OnlySevenInstructionsHalt := by
  intro i s t r hs h ht
  cases i with
  | sys nnn =>
    cases h
    cases ht
    exact .inl ⟨nnn, rfl, congrArg HaltReason.unsupportedInstruction (encode_sys nnn)⟩
  | ret =>
    obtain ⟨_, _, _, rfl⟩ | ⟨_, rfl⟩ := execRet_cases h
    · cases hs.symm.trans ht
    · cases ht
      exact .inr (.inl ⟨rfl, rfl⟩)
  | call nnn =>
    obtain ⟨_, rfl⟩ | ⟨_, rfl⟩ := execCall_cases h
    · cases hs.symm.trans ht
    · cases ht
      exact .inr (.inr (.inl ⟨nnn, rfl, rfl⟩))
  | drw | ldB | ldMemRegs | ldRegsMem =>
    have hr : r = .memoryOutOfBounds (max s.i.toNat 0x1000) := ifInBounds_haltReason h hs ht
    exact .inr (.inr (.inr ⟨by simp, hr⟩))
  | ldVxK => obtain ⟨_, rfl⟩ | ⟨_, rfl⟩ := execLdVxK_cases h <;> cases hs.symm.trans ht
  | seImm | sneImm | seReg | sneReg | skp | sknp =>
    cases h
    rw [skipIf_eq_setPc, setPc_halted, hs] at ht
    cases ht
  | _ => cases h; cases hs.symm.trans ht

end Sys2Proof.Machine

/-! PROOFS. Launch: the glyphs and the ROM lie in disjoint blocks of an empty memory (70_reset_and_hazards.md R340 to
R343). -/

namespace Sys2Proof.Machine

/-! The memory with the 80 glyph bytes alone (R342). -/

theorem glyphMemory_wf (glyphs : Vector Byte 80) : (Memory.writeBlock [] 0 glyphs.toList).wf = true :=
  Memory.wf_writeBlock rfl (by rw [Vector.length_toList]; decide)

theorem glyphMemory_read_glyph (glyphs : Vector Byte 80) (a : Fin 80) :
    (Memory.writeBlock [] 0 glyphs.toList).read a.val = glyphs[a.val] := by
  have hlen : glyphs.toList.length = 80 := Vector.length_toList
  have hread := Memory.read_writeBlock_inside (m := []) (base := 0) (bs := glyphs.toList) (k := a.val) rfl
    (by omega) (by omega)
  rwa [Nat.zero_add, Vector.getElem_toList] at hread

/-- Above the glyphs nothing is listed, and an unlisted address reads 0 (D13; log 9). -/
theorem glyphMemory_read_of_le (glyphs : Vector Byte 80) {a : Nat} (ha : 0x050 ≤ a) :
    (Memory.writeBlock [] 0 glyphs.toList).read a = 0 := by
  have hlen : glyphs.toList.length = 80 := Vector.length_toList
  rw [Memory.read_writeBlock_outside rfl (by omega) (by omega)]
  exact unlistedByte_of_le ha

/-! The launch memory: the ROM over it, for a ROM that fits (R343; D15). -/

section LaunchMemory
variable {rom : List Byte}

/-- A ROM of at most 3584 bytes ends within memory. -/
theorem rom_fits (hrom : rom.length ≤ 3584) : Config.progBase + rom.length ≤ 4096 :=
  Nat.add_le_add_left hrom Config.progBase

theorem launchMemory_wf (glyphs : Vector Byte 80) (hrom : rom.length ≤ 3584) :
    (launchMemory glyphs.toList rom).wf = true :=
  Memory.wf_writeBlock (glyphMemory_wf glyphs) (rom_fits hrom)

theorem launchMemory_read_rom (glyphs : Vector Byte 80) (hrom : rom.length ≤ 3584) (j : Fin rom.length) :
    (launchMemory glyphs.toList rom).read (0x200 + j.val) = rom[j.val] :=
  Memory.read_writeBlock_inside (glyphMemory_wf glyphs) (rom_fits hrom) j.isLt

/-- Outside the ROM the launch memory reads as the glyphs left it. -/
theorem launchMemory_read_outside (glyphs : Vector Byte 80) (hrom : rom.length ≤ 3584) {a : Nat}
    (ha : a < 0x200 ∨ 0x200 + rom.length ≤ a) :
    (launchMemory glyphs.toList rom).read a = (Memory.writeBlock [] 0 glyphs.toList).read a :=
  Memory.read_writeBlock_outside (glyphMemory_wf glyphs) (rom_fits hrom) ha

theorem launchMemory_read_glyph (glyphs : Vector Byte 80) (hrom : rom.length ≤ 3584) (a : Fin 80) :
    (launchMemory glyphs.toList rom).read a.val = glyphs[a.val] :=
  (launchMemory_read_outside glyphs hrom (.inl (by omega))).trans (glyphMemory_read_glyph glyphs a)

theorem launchMemory_read_zero (glyphs : Vector Byte 80) (hrom : rom.length ≤ 3584) {a : Nat}
    (ha : (0x050 ≤ a ∧ a < 0x200) ∨ 0x200 + rom.length ≤ a) : (launchMemory glyphs.toList rom).read a = 0 :=
  (launchMemory_read_outside glyphs hrom (by omega)).trans (glyphMemory_read_of_le glyphs (by omega))

end LaunchMemory

/-- Settles O21: the size check decides whether there is a launch, and the two blocks of the launch memory decide what
each address reads; call stack and pc are those of the default launch. -/
theorem launchPlacesGlyphsAndRom : Obligations.LaunchPlacesGlyphsAndRom := by
  refine fun p host rom => ⟨rfl, fun hlarge => ?large, fun hrom => ⟨_, if_pos hrom, ?glyphs, ?rom, ?zero, ?rest⟩⟩
  case large => exact if_neg (Nat.not_le.mpr hlarge)
  case glyphs => exact launchMemory_read_glyph p.glyphs hrom
  case rom => exact launchMemory_read_rom p.glyphs hrom
  case zero => exact fun _ ha => launchMemory_read_zero p.glyphs hrom ha
  case rest =>
    obtain ⟨-, hstackAndPc⟩ := launchStateMeetsTheMachineInvariant
    exact ⟨rfl, rfl, rfl, rfl, rfl, rfl, rfl, fbGet_fbClear, rfl, rfl, rfl, launchMemory_wf p.glyphs hrom, hstackAndPc⟩

end Sys2Proof.Machine
